-- ==== Sys2Proof/Word.lean ====
section
/-! DEFINITION. The word types of the core (00_scope.md R10, R11): bytes, 16-bit words and 12-bit addresses as bit
vectors, register numbers as `Fin 16`. Nothing here is signed. -/

namespace Sys2Proof

/-- `u8`: a memory cell, a general register, a timer (00_scope.md R10). -/
abbrev Byte := BitVec 8

/-- `u16`: `pc`, `I`, a stack entry, an instruction word (00_scope.md R7, R10). -/
abbrev Word := BitVec 16

/-- The 12-bit address field `NNN` (30_encoding.md R72). -/
abbrev Addr12 := BitVec 12

/-- The number of a general register, the value of a 4-bit field `X` or `Y` (10_state.md R22). -/
abbrev Reg := Fin 16

end Sys2Proof
end

