-- ==== Sys2Proof/Config.lean ====
section
/-! DEFINITION. What an implementation of the core fixes (00_scope.md R7, R8) and the one free value: the random byte of
a `Cycle` (40_cycle.md R100). -/

namespace Sys2Proof

namespace Config

/-- The number of cells of `M` (00_scope.md R7). -/
abbrev memBytes : Nat := 4096

/-- The highest address of `M` (20_memory.md R50). -/
abbrev maxAddr : Nat := 0xFFF

/-- Where a program is loaded and where `pc` starts (00_scope.md R7). -/
abbrev romBase : Nat := 0x200

/-- The longest ROM, `4096 - 0x200` bytes (00_scope.md R7, 70_reset_and_hazards.md R283). -/
abbrev maxRomBytes : Nat := 3584

/-- The size of the font, 16 glyphs of 5 bytes (00_scope.md R7). -/
abbrev fontBytes : Nat := 80

/-- The default of the parameter `FONT_BASE` (00_scope.md R8; log 4). -/
def fontBase : Word := 0x050

/-- FREE VALUE (log 2): the random byte of the n-th draw that the host's schedule does not fix. No body, so a claim holds
for every sequence of random bytes (40_cycle.md R100: "a model quantifies over every value"). -/
opaque freeRand8 : Nat → Byte

end Config

/-- The two parameters of `Construct`, `FONT_BASE` and `FONT_DATA` (00_scope.md R8). -/
structure FontConfig where
  base : Word
  data : List Byte
  deriving DecidableEq, Repr

end Sys2Proof
end

