-- ==== Sys2Proof/Syntax.lean ====
section
/-! DEFINITION. The instruction set (30_encoding.md R80), whole: one constructor per row of spec/opcode_table.json, in the
table's order. Every operand has the type of its field (R72), so a term of `Instr` is always encodable. -/

namespace Sys2Proof

/-- The 34 instructions of 30_encoding.md R80. `x`, `y` are register numbers, `nn` the 8-bit immediate, `nnn` the 12-bit
address, `n` the sprite height. -/
inductive Instr where
  /-- 00E0 CLS -/
  | cls
  /-- 00EE RET -/
  | ret
  /-- 1NNN JP NNN -/
  | jp (nnn : Addr12)
  /-- 2NNN CALL NNN -/
  | call (nnn : Addr12)
  /-- 3XNN SE Vx, NN -/
  | seVxNn (x : Reg) (nn : Byte)
  /-- 4XNN SNE Vx, NN -/
  | sneVxNn (x : Reg) (nn : Byte)
  /-- 5XY0 SE Vx, Vy -/
  | seVxVy (x y : Reg)
  /-- 6XNN LD Vx, NN -/
  | ldVxNn (x : Reg) (nn : Byte)
  /-- 7XNN ADD Vx, NN -/
  | addVxNn (x : Reg) (nn : Byte)
  /-- 8XY0 LD Vx, Vy -/
  | ldVxVy (x y : Reg)
  /-- 8XY1 OR Vx, Vy -/
  | orVxVy (x y : Reg)
  /-- 8XY2 AND Vx, Vy -/
  | andVxVy (x y : Reg)
  /-- 8XY3 XOR Vx, Vy -/
  | xorVxVy (x y : Reg)
  /-- 8XY4 ADD Vx, Vy -/
  | addVxVy (x y : Reg)
  /-- 8XY5 SUB Vx, Vy -/
  | subVxVy (x y : Reg)
  /-- 8XY6 SHR Vx: `y` is encoded but ignored (R160) -/
  | shrVx (x y : Reg)
  /-- 8XY7 SUBN Vx, Vy -/
  | subnVxVy (x y : Reg)
  /-- 8XYE SHL Vx: `y` is encoded but ignored (R162) -/
  | shlVx (x y : Reg)
  /-- 9XY0 SNE Vx, Vy -/
  | sneVxVy (x y : Reg)
  /-- ANNN LD I, NNN -/
  | ldINnn (nnn : Addr12)
  /-- BNNN JP V0, NNN -/
  | jpV0Nnn (nnn : Addr12)
  /-- CXNN RND Vx, NN -/
  | rndVxNn (x : Reg) (nn : Byte)
  /-- DXYN DRW Vx, Vy, N -/
  | drw (x y : Reg) (n : Fin 16)
  /-- EX9E SKP Vx -/
  | skp (x : Reg)
  /-- EXA1 SKNP Vx -/
  | sknp (x : Reg)
  /-- FX07 LD Vx, DT -/
  | ldVxDt (x : Reg)
  /-- FX0A LD Vx, K -/
  | ldVxK (x : Reg)
  /-- FX15 LD DT, Vx -/
  | ldDtVx (x : Reg)
  /-- FX18 LD ST, Vx -/
  | ldStVx (x : Reg)
  /-- FX1E ADD I, Vx -/
  | addIVx (x : Reg)
  /-- FX29 LD F, Vx -/
  | ldFVx (x : Reg)
  /-- FX33 LD B, Vx -/
  | ldBVx (x : Reg)
  /-- FX55 LD [I], Vx -/
  | ldMemVx (x : Reg)
  /-- FX65 LD Vx, [I] -/
  | ldVxMem (x : Reg)
  deriving DecidableEq, Repr

end Sys2Proof
end

