-- ==== Sys2Proof/WellFormed.lean ====
section
/-! DEFINITION. The checks on what comes from outside: the parameters of `Construct` (00_scope.md R8) and the operands of
a statement as a programmer writes it (30_encoding.md R81). A term of `Instr` needs no check: the types of its operands
are the widths of its fields (R72), so the check of a statement ANSWERS the instruction, or refuses. -/

namespace Sys2Proof

/-- `FONT_BASE + 80 <= 0x200`, and `FONT_DATA` is 80 bytes (00_scope.md R8). -/
def FontConfig.wellFormed (f : FontConfig) : Bool :=
  decide (f.base.toNat + Config.fontBytes ≤ Config.romBase) && f.data.length == Config.fontBytes

/-- The mnemonics of 30_encoding.md R80. -/
inductive AsmName where
  | cls | ret | jp | call | se | sne | ld | add | or | and | xor | sub | shr | subn | shl | rnd | drw | skp | sknp
  deriving DecidableEq, Repr

/-- An operand as written (30_encoding.md R81): a register, a number, or one of the fixed keywords. The numbers carry
no bound yet. -/
inductive AsmOperand where
  | reg (n : Nat)
  | num (n : Nat)
  /-- `I` -/
  | idx
  /-- `DT` -/
  | dt
  /-- `ST` -/
  | st
  /-- `K` -/
  | key
  /-- `F` -/
  | font
  /-- `B` -/
  | bcd
  /-- `[I]` -/
  | atI
  deriving DecidableEq, Repr

/-- One statement `MNEMONIC operand, operand` (30_encoding.md R81). -/
structure AsmStatement where
  name : AsmName
  operands : List AsmOperand
  deriving DecidableEq, Repr

/-- A register is `V0` to `VF` (30_encoding.md R81). -/
def checkReg (n : Nat) : Option Reg :=
  if h : n < 16 then some ⟨n, h⟩ else none

/-- "`NN` in 0..0xFF" (30_encoding.md R81). -/
def checkImm8 (n : Nat) : Option Byte :=
  if n ≤ 0xFF then some (BitVec.ofNat 8 n) else none

/-- "`NNN` must be in 0..0xFFF" (30_encoding.md R81). -/
def checkAddr12 (n : Nat) : Option Addr12 :=
  if n ≤ 0xFFF then some (BitVec.ofNat 12 n) else none

/-- "`N` in 0..0xF" (30_encoding.md R81). -/
def checkHeight (n : Nat) : Option (Fin 16) :=
  if h : n < 16 then some ⟨n, h⟩ else none

/-- The check of a statement with one register operand. -/
def checkX (mk : Reg → Instr) (x : Nat) : Option Instr :=
  (checkReg x).map mk

/-- The check of a statement with two register operands. -/
def checkXY (mk : Reg → Reg → Instr) (x y : Nat) : Option Instr :=
  (checkReg x).bind fun x => (checkReg y).map (mk x)

/-- The check of a statement with a register and an 8-bit number. -/
def checkXNN (mk : Reg → Byte → Instr) (x n : Nat) : Option Instr :=
  (checkReg x).bind fun x => (checkImm8 n).map (mk x)

/-- The check of a statement with a 12-bit number. -/
def checkNNN (mk : Addr12 → Instr) (n : Nat) : Option Instr :=
  (checkAddr12 n).map mk

/-- The instruction a statement stands for, or none where its operands have no form of 30_encoding.md R80 or a number is
out of its range (R81). SHR and SHL may leave `Vy` out, and then `Y = 0` (R82). -/
def AsmStatement.check (s : AsmStatement) : Option Instr :=
  match s.name, s.operands with
  | .cls, [] => some .cls
  | .ret, [] => some .ret
  | .jp, [.num n] => checkNNN .jp n
  | .jp, [.reg 0, .num n] => checkNNN .jpV0Nnn n
  | .call, [.num n] => checkNNN .call n
  | .se, [.reg x, .num n] => checkXNN .seVxNn x n
  | .se, [.reg x, .reg y] => checkXY .seVxVy x y
  | .sne, [.reg x, .num n] => checkXNN .sneVxNn x n
  | .sne, [.reg x, .reg y] => checkXY .sneVxVy x y
  | .ld, [.reg x, .num n] => checkXNN .ldVxNn x n
  | .ld, [.reg x, .reg y] => checkXY .ldVxVy x y
  | .ld, [.idx, .num n] => checkNNN .ldINnn n
  | .ld, [.reg x, .dt] => checkX .ldVxDt x
  | .ld, [.reg x, .key] => checkX .ldVxK x
  | .ld, [.dt, .reg x] => checkX .ldDtVx x
  | .ld, [.st, .reg x] => checkX .ldStVx x
  | .ld, [.font, .reg x] => checkX .ldFVx x
  | .ld, [.bcd, .reg x] => checkX .ldBVx x
  | .ld, [.atI, .reg x] => checkX .ldMemVx x
  | .ld, [.reg x, .atI] => checkX .ldVxMem x
  | .add, [.reg x, .num n] => checkXNN .addVxNn x n
  | .add, [.reg x, .reg y] => checkXY .addVxVy x y
  | .add, [.idx, .reg x] => checkX .addIVx x
  | .or, [.reg x, .reg y] => checkXY .orVxVy x y
  | .and, [.reg x, .reg y] => checkXY .andVxVy x y
  | .xor, [.reg x, .reg y] => checkXY .xorVxVy x y
  | .sub, [.reg x, .reg y] => checkXY .subVxVy x y
  | .subn, [.reg x, .reg y] => checkXY .subnVxVy x y
  | .shr, [.reg x] => checkXY .shrVx x 0
  | .shr, [.reg x, .reg y] => checkXY .shrVx x y
  | .shl, [.reg x] => checkXY .shlVx x 0
  | .shl, [.reg x, .reg y] => checkXY .shlVx x y
  | .rnd, [.reg x, .num n] => checkXNN .rndVxNn x n
  | .drw, [.reg x, .reg y, .num n] => (checkReg x).bind fun x => (checkReg y).bind fun y => (checkHeight n).map (.drw x y)
  | .skp, [.reg x] => checkX .skp x
  | .sknp, [.reg x] => checkX .sknp x
  | _, _ => none

/-- The statement is one of 30_encoding.md R80 with every number in the range of R81. -/
def AsmStatement.wellFormed (s : AsmStatement) : Bool :=
  s.check.isSome

end Sys2Proof
end

