-- ==== Sys2Proof/Machine/State.lean ====
section
/-! DEFINITION. The state of the machine (10_state.md R20), what a host operation can be and return (60_exceptions.md R250,
R257), the reasons a step can stop, and the state after `Construct` with the default parameters (10_state.md R40). -/

namespace Sys2Proof

/-- The error kinds the core returns, with their payloads (60_exceptions.md R250). An error is a RESULT of an operation, not
a stop: the step that meets one answers a next state (log 1). -/
inductive ErrorKind where
  /-- `LoadROM` of more than 3584 bytes (70_reset_and_hazards.md R282). -/
  | romTooLarge
  /-- The fetched word decodes to `UNKNOWN` (40_cycle.md R106). -/
  | unknownOpcode (w : Word)
  /-- CALL with `SP = 16` (41_control_flow.md R123). -/
  | stackOverflow
  /-- RET with `SP = 0` (41_control_flow.md R121). -/
  | stackUnderflow
  /-- The lowest address above 0xFFF the operation would touch (20_memory.md R53, 60_exceptions.md R255). -/
  | addressOutOfRange (a : Word)
  /-- SKP or SKNP with a key number above 0xF (45_timer_keypad.md R230). -/
  | keyOutOfRange (v : Byte)
  deriving DecidableEq, Repr

/-- What a host operation returned (the "outputs" column of 60_exceptions.md R257). -/
inductive OpResult where
  /-- The operation returns no `Ok` and no error (`Construct`, `TimerTick`, `SetKey`, `Observe`), or none has run yet. -/
  | noResult
  /-- `Ok`. -/
  | ok
  /-- `Err(kind)`. -/
  | error (e : ErrorKind)
  deriving DecidableEq, Repr

/-- The host's operations (60_exceptions.md R257). -/
inductive HostOp where
  /-- `Construct(FONT_BASE, FONT_DATA)` (70_reset_and_hazards.md R280). -/
  | construct (font : FontConfig)
  /-- `LoadROM(bytes)` (70_reset_and_hazards.md R282). -/
  | loadROM (bytes : List Byte)
  /-- `Cycle` with its random byte (40_cycle.md R100). -/
  | cycle (rand8 : Byte)
  /-- `TimerTick` (60_exceptions.md R258). -/
  | timerTick
  /-- `SetKey(k, pressed)` (60_exceptions.md R260). -/
  | setKey (k : Fin 16) (pressed : Bool)
  /-- `Observe` (60_exceptions.md R262). -/
  | observe
  deriving DecidableEq, Repr

namespace Machine

/-- Memory `M` (10_state.md R35): the cells whose content is not the one `Construct` leaves by default, addresses strictly
rising (log 5). -/
abbrev Memory := List Host.Cell

/-- The display `D` (10_state.md R37): 32 rows of 64 cells. -/
abbrev Display := Vector (Vector Bool 64) 32

/-- The whole machine (10_state.md R20), its font base (00_scope.md R8), and the model's side of the host interface. -/
structure State where
  /-- `M`. -/
  mem : Memory
  /-- `D`. -/
  display : Display
  /-- `pc`: while an instruction executes, the address after it (10_state.md R26). -/
  pc : Word
  /-- `I`. -/
  i : Word
  /-- `S[0]` to `S[15]`. -/
  stack : Vector Word 16
  /-- `SP`, the count of entries pushed. -/
  sp : Fin 17
  /-- `DT`. -/
  dt : Byte
  /-- `ST`. -/
  st : Byte
  /-- `V[0]` to `V[15]`. -/
  v : Vector Byte 16
  /-- `K[0]` to `K[15]`. -/
  keys : Vector Bool 16
  /-- `FONT_BASE` of this machine: configuration, which only `Construct` sets (log 4). -/
  fontBase : Word
  /-- The model's own: the host's pending calls, oldest first (log 3). -/
  inputs : List HostOp
  /-- The model's own: the random byte of the current `Cycle`, none where nothing fixes it (log 2). -/
  rand8 : Option Byte
  /-- The model's own: how many free random bytes have been taken (log 2). -/
  draws : Nat
  /-- The model's own: what the last host operation returned (log 1). -/
  result : OpResult
  deriving DecidableEq, Repr

/-- Reasons to stop with a fault: there are none. Every error of 60_exceptions.md R250 is returned to the host and the
machine goes on (R251, R252), so no step of this core answers a fault (log 1). -/
inductive Fault
  deriving DecidableEq, Repr

/-- Reasons the model has no meaning for a step. -/
inductive Refusal where
  /-- An arm of `exec` whose instruction has no meaning yet (safe); no arm is left. -/
  | notModelled (mnemonic : String)
  /-- A `Construct` whose parameters break the constraint of 00_scope.md R8, raised by `runConstruct` (safe; log 8). -/
  | fontOutsideParameterRange
  deriving DecidableEq, Repr

/-- The machine right after `Construct` with the default parameters (10_state.md R40); the last four fields are the model's
own (log 15). -/
def State.reset : State where
  mem := []
  display := Vector.replicate 32 (Vector.replicate 64 false)
  pc := 0x200
  i := 0
  stack := Vector.replicate 16 0
  sp := 0
  dt := 0
  st := 0
  v := Vector.replicate 16 0
  keys := Vector.replicate 16 false
  fontBase := Config.fontBase
  inputs := []
  rand8 := none
  draws := 0
  result := .noResult

end Machine

end Sys2Proof
end

