-- ==== Sys2Proof/Machine/Memory.lean ====
section
/-! DEFINITION. Memory `M` (20_memory.md): what a cell holds that nothing has written, one byte read and written, runs of
bytes, and the range check (R53). -/

namespace Sys2Proof

namespace Machine

/-- The default `FONT_DATA`, the table of 10_state.md R36 (which marks it as general knowledge; log 4). -/
def defaultFontData : List Byte :=
  [0xF0, 0x90, 0x90, 0x90, 0xF0,   -- 0
   0x20, 0x60, 0x20, 0x20, 0x70,   -- 1
   0xF0, 0x10, 0xF0, 0x80, 0xF0,   -- 2
   0xF0, 0x10, 0xF0, 0x10, 0xF0,   -- 3
   0x90, 0x90, 0xF0, 0x10, 0x10,   -- 4
   0xF0, 0x80, 0xF0, 0x10, 0xF0,   -- 5
   0xF0, 0x80, 0xF0, 0x90, 0xF0,   -- 6
   0xF0, 0x10, 0x20, 0x40, 0x40]   -- 7
  ++
  [0xF0, 0x90, 0xF0, 0x90, 0xF0,   -- 8
   0xF0, 0x90, 0xF0, 0x10, 0xF0,   -- 9
   0xF0, 0x90, 0xF0, 0x90, 0x90,   -- A
   0xE0, 0x90, 0xE0, 0x90, 0xE0,   -- B
   0xF0, 0x80, 0x80, 0x80, 0xF0,   -- C
   0xE0, 0x90, 0x90, 0x90, 0xE0,   -- D
   0xF0, 0x80, 0xF0, 0x80, 0xF0,   -- E
   0xF0, 0x80, 0xF0, 0x80, 0x80]   -- F

/-- The default parameters of `Construct` (00_scope.md R8). -/
def defaultFont : FontConfig := ⟨Config.fontBase, defaultFontData⟩

/-- What an unlisted cell holds: the content `Construct` leaves by default, the font at `FONT_BASE` and 0x00 elsewhere
(10_state.md R40; log 5). -/
def unlistedByte (a : Nat) : Byte :=
  if Config.fontBase.toNat ≤ a ∧ a < Config.fontBase.toNat + Config.fontBytes
  then defaultFontData.getD (a - Config.fontBase.toNat) 0 else 0

/-- The canonical form of a memory: addresses strictly rising, each in `M`, and no entry equal to what its address reads
as unlisted. -/
abbrev Memory.wf (m : Memory) : Prop :=
  m.Pairwise (fun p q => p.1 < q.1) ∧ ∀ c ∈ m, c.1 ≤ Config.maxAddr ∧ c.2 ≠ unlistedByte c.1

/-- `MemRead(a, 1)` (00_scope.md R13). -/
def readByte : Memory → Nat → Byte
  | [], a => unlistedByte a
  | (k, b) :: m, a => if k = a then b else readByte m a

/-- A cell in front of a memory, left out where it would say what an unlisted address says. -/
def consCell (a : Nat) (b : Byte) (m : Memory) : Memory :=
  if b = unlistedByte a then m else (a, b) :: m

/-- `MemWrite(a, 1, b)` (00_scope.md R13), keeping the canonical form. -/
def writeByte : Memory → Nat → Byte → Memory
  | [], a, b => consCell a b []
  | (k, c) :: m, a, b =>
    if a < k then consCell a b ((k, c) :: m)
    else if a = k then consCell a b m
    else (k, c) :: writeByte m a b

/-- `n` bytes from an address up, lowest address first. -/
def readBytes (m : Memory) (base n : Nat) : List Byte :=
  (List.range n).map fun k => readByte m (base + k)

/-- The bytes stored one after the other from an address up, lowest address first (20_memory.md R55). -/
def writeBytes (m : Memory) (base : Nat) : List Byte → Memory
  | [] => m
  | b :: bs => writeBytes (writeByte m base b) (base + 1) bs

/-- The range check of 20_memory.md R53 for `n` bytes from `base`: the lowest address above 0xFFF among them, if any.
Addresses do not wrap. -/
def outOfRange (base : Word) (n : Nat) : Option Word :=
  if 0 < n ∧ Config.maxAddr < base.toNat + n - 1
  then some (if Config.maxAddr < base.toNat then base else 0x1000) else none

/-- A checked read: the bytes, or the error of 60_exceptions.md R255. -/
def checkedRead (m : Memory) (base : Word) (n : Nat) : Except ErrorKind (List Byte) :=
  match outOfRange base n with
  | some a => .error (.addressOutOfRange a)
  | none => .ok (readBytes m base.toNat n)

/-- A checked store: every address is checked before the first write (20_memory.md R53). -/
def checkedStore (m : Memory) (base : Word) (bs : List Byte) : Except ErrorKind Memory :=
  match outOfRange base bs.length with
  | some a => .error (.addressOutOfRange a)
  | none => .ok (writeBytes m base.toNat bs)

/-- A memory of 4096 zeros: the default font written over with 0x00 (70_reset_and_hazards.md R280, first line). -/
def zeroMemory : Memory :=
  writeBytes [] Config.fontBase.toNat (List.replicate Config.fontBytes 0)

end Machine

end Sys2Proof
end

