-- ==== Sys2Proof/Machine/Ops.lean ====
section
/-! DEFINITION. The shared operations of the instructions: registers, the skip and the jump, the stack controller, the
error result. -/

namespace Sys2Proof

namespace Machine

/-- What one step answers. -/
abbrev StepResult := Host.Outcome State Fault Refusal

/-- The number of VF (10_state.md R24). -/
abbrev vfIndex : Reg := 15

/-- `V[x]` (00_scope.md R12). -/
def State.reg (s : State) (x : Reg) : Byte := s.v[x]

/-- `V[x] <- b` (00_scope.md R12). -/
def State.setReg (s : State) (x : Reg) (b : Byte) : State := { s with v := s.v.set x b }

/-- The result is written first and the flag to VF after it, so VF holds the flag when `X = 0xF` (42_arithmetic_logic.md
R151). -/
def State.setRegAndFlag (s : State) (x : Reg) (b flag : Byte) : State := (s.setReg x b).setReg vfIndex flag

/-- `raise E` (00_scope.md R14, 60_exceptions.md R251): the operation ends, the host is given the error, and nothing else
changes. It saves no state, changes no mode and uses no vector (R264), so there is no return from it (R265): the host
simply calls again (R252). Log 1. -/
def State.raise (s : State) (e : ErrorKind) : StepResult := .next { s with result := .error e }

/-- `pc <- target` (00_scope.md R12). -/
def State.jump (s : State) (target : Word) : State := { s with pc := target }

/-- The skip of 41_control_flow.md R120: one more word is passed over when the condition holds. -/
def State.skipIf (s : State) (c : Bool) : State := if c then s.jump (s.pc + 2) else s

/-- Push (10_state.md R32): none when `SP = 16`. -/
def State.push (s : State) (a : Word) : Option State :=
  if h : s.sp.val < 16 then some { s with stack := s.stack.set s.sp a, sp := ⟨s.sp.val + 1, by omega⟩ } else none

/-- Pop (10_state.md R32): the entry and the state without it, none when `SP = 0`. The entry keeps its value. -/
def State.pop (s : State) : Option (Word × State) :=
  if h : 0 < s.sp.val then some (s.stack[s.sp.val - 1], { s with sp := ⟨s.sp.val - 1, by omega⟩ }) else none

/-- V0 to Vx, in order: what FX55 stores (44_index_memory.md R213). -/
def State.regsUpTo (s : State) (x : Reg) : List Byte := s.v.toList.take (x.val + 1)

/-- The bytes into V0, V1, ... in order: what FX65 does with what it loaded (44_index_memory.md R214). -/
def State.setRegsFrom (s : State) (bs : List Byte) : State :=
  { s with v := Vector.ofFn fun k : Fin 16 => bs.getD k.val s.v[k] }

/-- `K[k]` (00_scope.md R12). -/
def State.key (s : State) (k : Fin 16) : Bool := s.keys[k]

/-- `min { k | K[k] = true }`, if some key is pressed (45_timer_keypad.md R236). -/
def State.lowestKey (s : State) : Option (Fin 16) := (List.finRange 16).find? s.key

/-- The random byte of the current `Cycle`: the one the host handed over, else a free value (40_cycle.md R100; log 2). -/
def State.randomByte (s : State) : Byte := s.rand8.getD (Config.freeRand8 s.draws)

/-- The free value that `randomByte` used is not used again. -/
def State.drawn (s : State) : State :=
  { s with draws := if s.rand8.isSome then s.draws else s.draws + 1 }

end Machine

end Sys2Proof
end

