-- ==== Sys2Proof/Machine/Flags.lean ====
section
/-! DEFINITION. The values the flag-setting instructions write to VF (10_state.md R25). -/

namespace Sys2Proof

namespace Machine

/-- A condition as the byte VF receives, 1 or 0 (10_state.md R25). -/
def flagByte (c : Bool) : Byte := if c then 1 else 0

/-- 8XY4: 1 when the sum of the operands is above 255 (42_arithmetic_logic.md R158). -/
def carryFlag (a b : Byte) : Byte := flagByte (decide (255 < a.toNat + b.toNat))

/-- 8XY5, 8XY7: 1 when no borrow occurs, minuend at least subtrahend (42_arithmetic_logic.md R159, R161). -/
def noBorrowFlag (minuend subtrahend : Byte) : Byte := flagByte (decide (subtrahend.toNat ≤ minuend.toNat))

/-- 8XY6: the bit shifted out, bit 0 (42_arithmetic_logic.md R160). -/
def lowBitFlag (a : Byte) : Byte := a &&& 1

/-- 8XYE: the bit shifted out, bit 7 (42_arithmetic_logic.md R162). -/
def highBitFlag (a : Byte) : Byte := (a >>> 7) &&& 1

end Machine

end Sys2Proof
end

