-- ==== Sys2Proof/Machine/Operands.lean ====
section
/-! DEFINITION. The operand forms (30_encoding.md R72, R73) and the values computed from them: addresses, glyph addresses,
decimal digits, key numbers. -/

namespace Sys2Proof

namespace Machine

/-- `NNN` as a 16-bit address, bits [15:12] zero (30_encoding.md R73). -/
def extendAddr (nnn : Addr12) : Word := nnn.setWidth 16

/-- A byte as a 16-bit value, bits [15:8] zero (`zext_16`, 00_scope.md R10). -/
def extendByte (b : Byte) : Word := b.setWidth 16

/-- The target of JP V0: `NNN + v0`, a 16-bit value (41_control_flow.md R128). -/
def offsetTarget (nnn : Addr12) (v0 : Byte) : Word := extendAddr nnn + extendByte v0

/-- The address of a glyph: `FONT_BASE + 5 * vx`, no mask on `vx` (43_display.md R195). -/
def glyphAddr (fontBase : Word) (vx : Byte) : Word := fontBase + 5 * extendByte vx

/-- `(I + vx) mod 0x10000` (44_index_memory.md R211). -/
def indexPlus (i : Word) (vx : Byte) : Word := i + extendByte vx

/-- The three decimal digits of a byte, hundreds first (44_index_memory.md R212). -/
def bcdDigits (vx : Byte) : List Byte :=
  [BitVec.ofNat 8 (vx.toNat / 100), BitVec.ofNat 8 (vx.toNat / 10 % 10), BitVec.ofNat 8 (vx.toNat % 10)]

/-- A key number, if the byte is one (45_timer_keypad.md R230). -/
def keyNumber (vx : Byte) : Option (Fin 16) :=
  if h : vx.toNat < 16 then some ⟨vx.toNat, h⟩ else none

end Machine

end Sys2Proof
end

