-- ==== Sys2Proof/Machine/ArithmeticLogic.lean ====
section
/-! DEFINITION. Arithmetic and logic (42_arithmetic_logic.md): 8-bit, modulo 256 (R150). The operands are those of the state
on entry, the result is written first and the flag last (R151). -/

namespace Sys2Proof

namespace Machine

/-- 6XNN LD Vx, NN (42_arithmetic_logic.md R152). -/
def execLdVxNn (x : Reg) (nn : Byte) (s : State) : StepResult := .next (s.setReg x nn)

/-- 7XNN ADD Vx, NN: no flag (42_arithmetic_logic.md R153). -/
def execAddVxNn (x : Reg) (nn : Byte) (s : State) : StepResult := .next (s.setReg x (s.reg x + nn))

/-- 8XY0 LD Vx, Vy (42_arithmetic_logic.md R154). -/
def execLdVxVy (x y : Reg) (s : State) : StepResult := .next (s.setReg x (s.reg y))

/-- 8XY1 OR Vx, Vy: no flag (42_arithmetic_logic.md R155). -/
def execOrVxVy (x y : Reg) (s : State) : StepResult := .next (s.setReg x (s.reg x ||| s.reg y))

/-- 8XY2 AND Vx, Vy: no flag (42_arithmetic_logic.md R156). -/
def execAndVxVy (x y : Reg) (s : State) : StepResult := .next (s.setReg x (s.reg x &&& s.reg y))

/-- 8XY3 XOR Vx, Vy: no flag (42_arithmetic_logic.md R157). -/
def execXorVxVy (x y : Reg) (s : State) : StepResult := .next (s.setReg x (s.reg x ^^^ s.reg y))

/-- 8XY4 ADD Vx, Vy (42_arithmetic_logic.md R158). -/
def execAddVxVy (x y : Reg) (s : State) : StepResult :=
  .next (s.setRegAndFlag x (s.reg x + s.reg y) (carryFlag (s.reg x) (s.reg y)))

/-- 8XY5 SUB Vx, Vy (42_arithmetic_logic.md R159). -/
def execSubVxVy (x y : Reg) (s : State) : StepResult :=
  .next (s.setRegAndFlag x (s.reg x - s.reg y) (noBorrowFlag (s.reg x) (s.reg y)))

/-- 8XY6 SHR Vx: Vx is shifted in place, Y is ignored (42_arithmetic_logic.md R160). -/
def execShrVx (x _y : Reg) (s : State) : StepResult :=
  .next (s.setRegAndFlag x (s.reg x >>> 1) (lowBitFlag (s.reg x)))

/-- 8XY7 SUBN Vx, Vy (42_arithmetic_logic.md R161). -/
def execSubnVxVy (x y : Reg) (s : State) : StepResult :=
  .next (s.setRegAndFlag x (s.reg y - s.reg x) (noBorrowFlag (s.reg y) (s.reg x)))

/-- 8XYE SHL Vx: Vx is shifted in place, Y is ignored (42_arithmetic_logic.md R162). -/
def execShlVx (x _y : Reg) (s : State) : StepResult :=
  .next (s.setRegAndFlag x (s.reg x <<< 1) (highBitFlag (s.reg x)))

/-- CXNN RND Vx, NN (42_arithmetic_logic.md R163). -/
def execRndVxNn (x : Reg) (nn : Byte) (s : State) : StepResult :=
  .next ((s.setReg x (s.randomByte &&& nn)).drawn)

end Machine

end Sys2Proof
end

