-- ==== Sys2Proof/Machine/ControlFlow.lean ====
section
/-! DEFINITION. Control flow and the stack controller (41_control_flow.md). On entry `pc` is the address after the
instruction (40_cycle.md R103). -/

namespace Sys2Proof

namespace Machine

/-- 00EE RET (41_control_flow.md R121). -/
def execRet (s : State) : StepResult :=
  match s.pop with
  | none => s.raise .stackUnderflow
  | some (a, t) => .next (t.jump a)

/-- 1NNN JP NNN (41_control_flow.md R122). -/
def execJp (nnn : Addr12) (s : State) : StepResult := .next (s.jump (extendAddr nnn))

/-- 2NNN CALL NNN: `pc`, the address after the CALL, is pushed (41_control_flow.md R123). -/
def execCall (nnn : Addr12) (s : State) : StepResult :=
  match s.push s.pc with
  | none => s.raise .stackOverflow
  | some t => .next (t.jump (extendAddr nnn))

/-- 3XNN SE Vx, NN (41_control_flow.md R124). -/
def execSeVxNn (x : Reg) (nn : Byte) (s : State) : StepResult := .next (s.skipIf (s.reg x == nn))

/-- 4XNN SNE Vx, NN (41_control_flow.md R125). -/
def execSneVxNn (x : Reg) (nn : Byte) (s : State) : StepResult := .next (s.skipIf (s.reg x != nn))

/-- 5XY0 SE Vx, Vy (41_control_flow.md R126). -/
def execSeVxVy (x y : Reg) (s : State) : StepResult := .next (s.skipIf (s.reg x == s.reg y))

/-- 9XY0 SNE Vx, Vy (41_control_flow.md R127). -/
def execSneVxVy (x y : Reg) (s : State) : StepResult := .next (s.skipIf (s.reg x != s.reg y))

/-- BNNN JP V0, NNN: the offset register is always V0 (41_control_flow.md R128). -/
def execJpV0Nnn (nnn : Addr12) (s : State) : StepResult := .next (s.jump (offsetTarget nnn (s.reg 0)))

end Machine

end Sys2Proof
end

