-- ==== Sys2Proof/Machine/Graphics.lean ====
section
/-! DEFINITION. Display and graphics (43_display.md). -/

namespace Sys2Proof

namespace Machine

/-- `D[x, y]` (10_state.md R37). -/
def pixel (d : Display) (x : Fin 64) (y : Fin 32) : Bool := d[y][x]

/-- `D[x, y] <- b` (10_state.md R37). -/
def setPixel (d : Display) (x : Fin 64) (y : Fin 32) (b : Bool) : Display := d.set y (d[y].set x b)

/-- The display with every cell clear (43_display.md R191). -/
def clearDisplay : Display := Vector.replicate 32 (Vector.replicate 64 false)

/-- A display being drawn on, and whether an on pixel has met an on cell so far. -/
structure Drawing where
  display : Display
  collision : Bool
  deriving DecidableEq, Repr

/-- One pixel of a sprite at column `x`, row `y` (the body of the inner loop of 43_display.md R192): beyond the edge it is
clipped, an on pixel flips its cell, an off pixel does nothing. -/
def drawPixel (g : Drawing) (x y : Nat) (on : Bool) : Drawing :=
  if h : x < 64 ∧ y < 32 then
    if on then
      { display := setPixel g.display ⟨x, h.1⟩ ⟨y, h.2⟩ (!pixel g.display ⟨x, h.1⟩ ⟨y, h.2⟩)
        collision := g.collision || pixel g.display ⟨x, h.1⟩ ⟨y, h.2⟩ }
    else g
  else g

/-- The pixel in column `c` of a sprite row: bit 7 is the leftmost (43_display.md R190). -/
def spriteBit (row : Byte) (c : Nat) : Bool := row.getLsbD (7 - c)

/-- One sprite row, columns 0 to 7 (43_display.md R192). -/
def drawRow (g : Drawing) (x0 y : Nat) (row : Byte) : Drawing :=
  (List.range 8).foldl (fun g c => drawPixel g (x0 + c) y (spriteBit row c)) g

/-- The sprite's rows, top to bottom (43_display.md R192). -/
def drawSprite (g : Drawing) (x0 y : Nat) : List Byte → Drawing
  | [] => g
  | row :: rows => drawSprite (drawRow g x0 y row) x0 (y + 1) rows

/-- The column a coordinate register gives: `vx mod 64` (43_display.md R192). -/
def originColumn (vx : Byte) : Nat := vx.toNat % 64

/-- The row a coordinate register gives: `vy mod 32` (43_display.md R192). -/
def originRow (vy : Byte) : Nat := vy.toNat % 32

/-- 00E0 CLS (43_display.md R191). -/
def execCls (s : State) : StepResult := .next { s with display := clearDisplay }

/-- DXYN DRW Vx, Vy, N: all N sprite bytes are range-checked, clipped rows too; the coordinates are read before VF is
written (43_display.md R192, R193). -/
def execDrw (x y : Reg) (n : Fin 16) (s : State) : StepResult :=
  match checkedRead s.mem s.i n.val with
  | .error e => s.raise e
  | .ok rows =>
    let g := drawSprite ⟨s.display, false⟩ (originColumn (s.reg x)) (originRow (s.reg y)) rows
    .next ({ s with display := g.display }.setReg vfIndex (flagByte g.collision))

/-- FX29 LD F, Vx (43_display.md R195). -/
def execLdFVx (x : Reg) (s : State) : StepResult := .next { s with i := glyphAddr s.fontBase (s.reg x) }

end Machine

end Sys2Proof
end

