-- ==== Sys2Proof/Machine/IndexMemory.lean ====
section
/-! DEFINITION. The index register and the memory transfers (44_index_memory.md): the address of byte `k` is `I + k`, and
`I` is not modified by an access. -/

namespace Sys2Proof

namespace Machine

/-- ANNN LD I, NNN (44_index_memory.md R210). -/
def execLdINnn (nnn : Addr12) (s : State) : StepResult := .next { s with i := extendAddr nnn }

/-- FX1E ADD I, Vx: no flag (44_index_memory.md R211). -/
def execAddIVx (x : Reg) (s : State) : StepResult := .next { s with i := indexPlus s.i (s.reg x) }

/-- The bytes stored at `I`, or the error, with nothing written (20_memory.md R53). -/
def State.storeAtI (s : State) (bs : List Byte) : StepResult :=
  match checkedStore s.mem s.i bs with
  | .error e => s.raise e
  | .ok m => .next { s with mem := m }

/-- FX33 LD B, Vx (44_index_memory.md R212). -/
def execLdBVx (x : Reg) (s : State) : StepResult := s.storeAtI (bcdDigits (s.reg x))

/-- FX55 LD [I], Vx (44_index_memory.md R213). -/
def execLdMemVx (x : Reg) (s : State) : StepResult := s.storeAtI (s.regsUpTo x)

/-- FX65 LD Vx, [I] (44_index_memory.md R214). -/
def execLdVxMem (x : Reg) (s : State) : StepResult :=
  match checkedRead s.mem s.i (x.val + 1) with
  | .error e => s.raise e
  | .ok bs => .next (s.setRegsFrom bs)

end Machine

end Sys2Proof
end

