-- ==== Sys2Proof/Machine/TimerKeypad.lean ====
section
/-! DEFINITION. Timers and keypad (45_timer_keypad.md). -/

namespace Sys2Proof

namespace Machine

/-- EX9E SKP Vx (45_timer_keypad.md R231). -/
def execSkp (x : Reg) (s : State) : StepResult :=
  match keyNumber (s.reg x) with
  | none => s.raise (.keyOutOfRange (s.reg x))
  | some k => .next (s.skipIf (s.key k))

/-- EXA1 SKNP Vx (45_timer_keypad.md R232). -/
def execSknp (x : Reg) (s : State) : StepResult :=
  match keyNumber (s.reg x) with
  | none => s.raise (.keyOutOfRange (s.reg x))
  | some k => .next (s.skipIf (!s.key k))

/-- FX07 LD Vx, DT (45_timer_keypad.md R233). -/
def execLdVxDt (x : Reg) (s : State) : StepResult := .next (s.setReg x s.dt)

/-- FX15 LD DT, Vx (45_timer_keypad.md R234). -/
def execLdDtVx (x : Reg) (s : State) : StepResult := .next { s with dt := s.reg x }

/-- FX18 LD ST, Vx (45_timer_keypad.md R235). -/
def execLdStVx (x : Reg) (s : State) : StepResult := .next { s with st := s.reg x }

/-- FX0A LD Vx, K: the lowest pressed key, or the same instruction again at the next `Cycle` (45_timer_keypad.md R236). -/
def execLdVxK (x : Reg) (s : State) : StepResult :=
  match s.lowestKey with
  | some k => .next (s.setReg x (BitVec.ofNat 8 k.val))
  | none => .next (s.jump (s.pc - 2))

end Machine

end Sys2Proof
end

