-- ==== Sys2Proof/Machine/HostOps.lean ====
section
/-! DEFINITION. The host's operations other than `Cycle` (60_exceptions.md R257). -/

namespace Sys2Proof

namespace Machine

/-- The state `Construct` builds (70_reset_and_hazards.md R280): all zero, the font in memory, `pc` at 0x200. The
model's side of the host interface is not the machine's and is kept (log 3). -/
def State.constructed (s : State) (f : FontConfig) : State :=
  { s with
    mem := writeBytes zeroMemory f.base.toNat f.data
    display := Vector.replicate 32 (Vector.replicate 64 false)
    pc := 0x200
    i := 0
    stack := Vector.replicate 16 0
    sp := 0
    dt := 0
    st := 0
    v := Vector.replicate 16 0
    keys := Vector.replicate 16 false
    fontBase := f.base
    result := .noResult }

/-- `Construct`, under the parameter constraint of 00_scope.md R8; outside it the model has no meaning (log 8). -/
def runConstruct (f : FontConfig) (s : State) : StepResult :=
  if f.wellFormed then .next (s.constructed f) else .refused .fontOutsideParameterRange

/-- `LoadROM` (70_reset_and_hazards.md R282): the size is checked before the first write. -/
def runLoadRom (bytes : List Byte) (s : State) : StepResult :=
  if Config.maxRomBytes < bytes.length then s.raise .romTooLarge
  else .next { s with mem := writeBytes s.mem Config.romBase bytes, result := .ok }

/-- One timer's part of a tick: it stops at 0 (60_exceptions.md R258). -/
def tickTimer (t : Byte) : Byte := if t = 0 then 0 else t - 1

/-- `TimerTick` (60_exceptions.md R258). -/
def runTimerTick (s : State) : StepResult :=
  .next { s with dt := tickTimer s.dt, st := tickTimer s.st, result := .noResult }

/-- `SetKey(k, pressed)` (60_exceptions.md R260). -/
def runSetKey (k : Fin 16) (pressed : Bool) (s : State) : StepResult :=
  .next { s with keys := s.keys.set k pressed, result := .noResult }

/-- What the host sees of the machine, every piece of 10_state.md R20 under the source's field names (60_exceptions.md
R262). -/
structure Observation where
  memory : List Byte
  display : List (BitVec 32)
  pc : Word
  index : Word
  stack : List Word
  sp : Nat
  delayTimer : Byte
  soundTimer : Byte
  registers : List Byte
  keypad : List Bool
  deriving DecidableEq, Repr

/-- A display cell as the host reads it (10_state.md R37). -/
def cellWord (on : Bool) : BitVec 32 := if on then 0xFFFFFFFF else 0x00000000

/-- The display array in row-major order: `D[x, y]` is element `y * 64 + x` (10_state.md R37). -/
def displayWords (d : Display) : List (BitVec 32) := (d.toList.map fun row => row.toList.map cellWord).flatten

/-- The answer of `Observe` (60_exceptions.md R262). -/
def State.observation (s : State) : Observation where
  memory := readBytes s.mem 0 Config.memBytes
  display := displayWords s.display
  pc := s.pc
  index := s.i
  stack := s.stack.toList
  sp := s.sp.val
  delayTimer := s.dt
  soundTimer := s.st
  registers := s.v.toList
  keypad := s.keys.toList

/-- `Observe` (60_exceptions.md R262): reading changes nothing. The answer is `State.observation` of the state. -/
def runObserve (s : State) : StepResult := .next { s with result := .noResult }

end Machine

end Sys2Proof
end

