-- ==== Sys2Proof/Machine/Cycle.lean ====
section
/-! DEFINITION. Fetch, advance, decode, execute (40_cycle.md), and one host operation after the other. -/

namespace Sys2Proof

namespace Machine

/-- Fetch with its range check (40_cycle.md R101, R102): the word at `pc`, high byte first. -/
def State.fetch (s : State) : Except ErrorKind Word :=
  match outOfRange s.pc 2 with
  | some a => .error (.addressOutOfRange a)
  | none => .ok (wordOfBytes (readByte s.mem s.pc.toNat) (readByte s.mem (s.pc.toNat + 1)))

/-- After a successful fetch `pc` is past the instruction, and unless an error is raised the `Cycle` returns `Ok`
(40_cycle.md R103, R107). -/
def State.advance (s : State) : State := { s with pc := s.pc + 2, result := .ok }

/-- `Cycle` (40_cycle.md R109) with the random byte of this `Cycle`, none where nothing fixes it (R100; log 2). -/
def runCycle (rand8 : Option Byte) (s : State) : StepResult :=
  match s.fetch with
  | .error e => { s with rand8 := rand8 }.raise e
  | .ok w =>
    match decode w with
    | none => { s with rand8 := rand8 }.advance.raise (.unknownOpcode w)
    | some i => exec i { s with rand8 := rand8 }.advance

/-- One host operation (60_exceptions.md R257). -/
def runHostOp (op : HostOp) (s : State) : StepResult :=
  match op with
  | .construct f => runConstruct f s
  | .loadROM bytes => runLoadRom bytes s
  | .cycle r => runCycle (some r) s
  | .timerTick => runTimerTick s
  | .setKey k pressed => runSetKey k pressed s
  | .observe => runObserve s

/-- The host's next call: the oldest pending one, or, where none is pending, a `Cycle` with a random byte nothing fixes
(log 3). -/
def runNext (s : State) : StepResult :=
  match s.inputs with
  | [] => runCycle none s
  | op :: rest => runHostOp op { s with inputs := rest }

/-- The address `withFetchWord` stores at: `pc`, or 0x200 where no word can be fetched at `pc` (log 7). -/
def State.fetchSlot (s : State) : Word := if s.pc.toNat + 1 ≤ Config.maxAddr then s.pc else 0x200

/-- The state whose next step is a `Cycle` that fetches this word (log 6, log 7). -/
def State.placeWord (s : State) (w : Word) : State :=
  { s with mem := writeBytes s.mem s.fetchSlot.toNat (bytesOfWord w), pc := s.fetchSlot, inputs := [] }

end Machine

end Sys2Proof
end

