-- ==== Sys2Proof/Machine/Step.lean ====
section
/-! DEFINITION. One step of the machine: the host's next operation (60_exceptions.md R257), a `Cycle` unless the host has
something else pending (log 3). -/

namespace Sys2Proof

namespace Machine

/-- One step. -/
def step (s : State) : Host.Outcome State Fault Refusal := runNext s

/-- The state with an instruction's bits, numbered as spec/opcode_table.json numbers them, stored where `step` fetches its
next instruction (log 6, log 7). -/
def State.withFetchWord (s : State) (nbits w : Nat) : State := s.placeWord (BitVec.ofNat 16 (w % 2 ^ nbits))

end Machine

end Sys2Proof
end

