-- ==== Sys2Proof/Machine/Assembler.lean ====
section
/-! DEFINITION. The text of a statement (30_encoding.md R81): `MNEMONIC operand, operand`, as a list of characters, to its
word (R84). What the grammar of R81 does not list is refused, but for the points log 10 names. -/

namespace Sys2Proof

namespace Machine

/-- The mnemonics of 30_encoding.md R80 as they are written. -/
def asmNames : List (List Char × AsmName) :=
  [(['C', 'L', 'S'], .cls), (['R', 'E', 'T'], .ret), (['J', 'P'], .jp), (['C', 'A', 'L', 'L'], .call), (['S', 'E'], .se),
   (['S', 'N', 'E'], .sne), (['L', 'D'], .ld), (['A', 'D', 'D'], .add), (['O', 'R'], .or), (['A', 'N', 'D'], .and)]
  ++
  [(['X', 'O', 'R'], .xor), (['S', 'U', 'B'], .sub), (['S', 'H', 'R'], .shr), (['S', 'U', 'B', 'N'], .subn),
   (['S', 'H', 'L'], .shl), (['R', 'N', 'D'], .rnd), (['D', 'R', 'W'], .drw), (['S', 'K', 'P'], .skp),
   (['S', 'K', 'N', 'P'], .sknp)]

/-- The fixed operand keywords of 30_encoding.md R81. -/
def asmKeywords : List (List Char × AsmOperand) :=
  [(['I'], .idx), (['D', 'T'], .dt), (['S', 'T'], .st), (['K'], .key), (['F'], .font), (['B'], .bcd), (['[', 'I', ']'], .atI)]

/-- The value of a digit `0` to `9`. -/
def decimalDigit (c : Char) : Option Nat :=
  if 48 ≤ c.toNat ∧ c.toNat ≤ 57 then some (c.toNat - 48) else none

/-- The value of an uppercase hexadecimal digit, the digit of a register name (30_encoding.md R81). -/
def upperHexDigit (c : Char) : Option Nat :=
  if 65 ≤ c.toNat ∧ c.toNat ≤ 70 then some (c.toNat - 55) else decimalDigit c

/-- The value of a hexadecimal digit after `0x`, upper or lower case (log 10). -/
def hexDigit (c : Char) : Option Nat :=
  if 97 ≤ c.toNat ∧ c.toNat ≤ 102 then some (c.toNat - 87) else upperHexDigit c

/-- Digits in a base, added to the value read so far. -/
def digitsFrom (digit : Char → Option Nat) (base : Nat) : Nat → List Char → Option Nat
  | acc, [] => some acc
  | acc, c :: cs => (digit c).bind fun d => digitsFrom digit base (acc * base + d) cs

/-- A number, decimal or hexadecimal with `0x` (30_encoding.md R81). -/
def parseNumber : List Char → Option Nat
  | [] => none
  | ['0', 'x'] => none
  | '0' :: 'x' :: cs => digitsFrom hexDigit 16 0 cs
  | cs => digitsFrom decimalDigit 10 0 cs

/-- One operand: a keyword, a register `V0` to `VF`, or a number (30_encoding.md R81). -/
def parseOperand (cs : List Char) : Option AsmOperand :=
  match asmKeywords.lookup cs with
  | some k => some k
  | none =>
    match cs with
    | ['V', d] => (upperHexDigit d).map .reg
    | _ => (parseNumber cs).map .num

/-- A list of characters cut at every comma, spaces after the comma dropped (30_encoding.md R81); spaces before a comma stay and
make the operand no operand (log 10). -/
def splitOperands : List Char → List (List Char)
  | [] => [[]]
  | ',' :: cs =>
    match splitOperands cs with
    | o :: os => [] :: o.dropWhile (· == ' ') :: os
    | [] => [[], []]
  | c :: cs =>
    match splitOperands cs with
    | o :: os => (c :: o) :: os
    | [] => [[c]]

/-- Every operand of a list, or none where one of them is no operand. -/
def parseOperands : List (List Char) → Option (List AsmOperand)
  | [] => some []
  | o :: os => (parseOperand o).bind fun x => (parseOperands os).map (x :: ·)

/-- A statement: the mnemonic, then a space and its operands, if it has any (30_encoding.md R81). DESIGN CHOICE where R81 is
silent on spaces (log 10): spaces after a mnemonic with no operands are accepted, spaces after a last operand and before the
mnemonic are refused. -/
def parseStatement (cs : List Char) : Option AsmStatement :=
  (asmNames.lookup (cs.takeWhile (· != ' '))).bind fun name =>
    match (cs.dropWhile (· != ' ')).dropWhile (· == ' ') with
    | [] => some ⟨name, []⟩
    | rest => (parseOperands (splitOperands rest)).map (AsmStatement.mk name)

/-- The word of a statement's text (30_encoding.md R84). -/
def assembleText (cs : List Char) : Option Word :=
  (parseStatement cs).bind AsmStatement.assemble

/-- The bytes of a program's text, one statement after the other, high byte first (30_encoding.md R84). -/
def assembleProgram : List (List Char) → Option (List Byte)
  | [] => some []
  | t :: ts => (assembleText t).bind fun w => (assembleProgram ts).map (bytesOfWord w ++ ·)

end Machine

end Sys2Proof
end

