-- ==== Sys2Proof/Safety.lean ====
section
/-! DEFINITION. What a safe state is: the invariant every step keeps, the states an operation completed in, and the end of
a run (70_reset_and_hazards.md R292). -/

namespace Sys2Proof

namespace Machine

/-- The invariant of the machine: memory is canonical, `pc` is at most 0x10FE and every stack entry at most 0x1000
(10_state.md R29), the font is below the program (00_scope.md R8). The bounds of 10_state.md R41 are types of `State`. -/
structure State.Inv (s : State) : Prop where
  mem : Memory.wf s.mem
  pc : s.pc.toNat ≤ 0x10FE
  stack : ∀ k : Fin 16, s.stack[k].toNat ≤ 0x1000
  font : s.fontBase.toNat + Config.fontBytes ≤ Config.romBase

/-- The last operation returned an error (60_exceptions.md R251). -/
def State.errored (s : State) : Bool :=
  match s.result with
  | .error _ => true
  | _ => false

/-- The next operation is a `Cycle`: nothing is pending, or a `Cycle` is the oldest pending call. -/
def State.cycleNext (s : State) : Bool :=
  match s.inputs with
  | [] => true
  | .cycle _ :: _ => true
  | _ => false

/-- The state a `Cycle` starts from: its call taken off the pending ones, and its random byte at hand (40_cycle.md R100). -/
def State.cycleStart (s : State) : State :=
  match s.inputs with
  | .cycle r :: rest => { s with rand8 := some r, inputs := rest }
  | _ => { s with rand8 := none }

/-- The end of a program: `pc` fetches a `1NNN` with `NNN = pc` (70_reset_and_hazards.md R292). -/
def State.atSelfJump (s : State) : Prop :=
  ∃ nnn, extendAddr nnn = s.pc ∧ s.fetch = .ok (wordNNN 0x1#4 nnn)

end Machine

end Sys2Proof
end

