-- ==== Sys2Proof/Certificates/Slice0/Obligations.lean ====
section
/-! DEFINITION. The statements for the provers. A rule R<n> is named with its file in OBLIGATIONS.json; `p` is the fetch
address, so that in a statement about `exec` the field `pc` of the state on entry is `p + 2` (40_cycle.md R103). -/

open Sys2Proof Sys2Proof.Machine

namespace Sys2Proof

namespace Machine

/-- The sprite of DXYN has an on pixel at column `col`, row `row` of the display (43_display.md R190, R192). -/
def spriteOn (s : State) (x y : Reg) (n : Fin 16) (col : Fin 64) (row : Fin 32) : Bool :=
  decide ((s.reg x).toNat % 64 ≤ col.val ∧ col.val < (s.reg x).toNat % 64 + 8 ∧
    (s.reg y).toNat % 32 ≤ row.val ∧ row.val < (s.reg y).toNat % 32 + n.val) &&
  (readByte s.mem (s.i.toNat + (row.val - (s.reg y).toNat % 32))).getLsbD (7 - (col.val - (s.reg x).toNat % 64))

/-- The general registers each instruction may write (10_state.md R23). -/
def mayWriteReg (i : Instr) (r : Reg) : Bool :=
  match i with
  | .ldVxNn x _ => r == x
  | .addVxNn x _ => r == x
  | .ldVxVy x _ => r == x
  | .orVxVy x _ => r == x
  | .andVxVy x _ => r == x
  | .xorVxVy x _ => r == x
  | .addVxVy x _ => r == x || r == 15
  | .subVxVy x _ => r == x || r == 15
  | .shrVx x _ => r == x || r == 15
  | .subnVxVy x _ => r == x || r == 15
  | .shlVx x _ => r == x || r == 15
  | .rndVxNn x _ => r == x
  | .drw _ _ _ => r == 15
  | .ldVxDt x => r == x
  | .ldVxK x => r == x
  | .ldVxMem x => decide (r ≤ x)
  | _ => false

/-- The table of 10_state.md R27, read at the state on entry, where `pc` is `p + 2`. -/
def pcAfter (i : Instr) (s : State) : Word :=
  match i with
  | .ret => if s.sp.val = 0 then s.pc else s.stack.toList.getD (s.sp.val - 1) 0
  | .jp nnn => nnn.setWidth 16
  | .call nnn => if s.sp.val = 16 then s.pc else nnn.setWidth 16
  | .seVxNn x nn => if s.reg x = nn then s.pc + 2 else s.pc
  | .sneVxNn x nn => if s.reg x ≠ nn then s.pc + 2 else s.pc
  | .seVxVy x y => if s.reg x = s.reg y then s.pc + 2 else s.pc
  | .sneVxVy x y => if s.reg x ≠ s.reg y then s.pc + 2 else s.pc
  | .skp x => if ∃ k : Fin 16, k.val = (s.reg x).toNat ∧ s.key k = true then s.pc + 2 else s.pc
  | .sknp x => if ∃ k : Fin 16, k.val = (s.reg x).toNat ∧ s.key k = false then s.pc + 2 else s.pc
  | .jpV0Nnn nnn => BitVec.ofNat 16 (nnn.toNat + (s.reg 0).toNat)
  | .ldVxK _ => if ∀ k : Fin 16, s.key k = false then s.pc - 2 else s.pc
  | _ => s.pc

end Machine

end Sys2Proof

/-! ## Reset and the host's operations -/

/-- 10_state.md R40: every piece of state after construction, with the default parameters of 00_scope.md R8; the default font
bytes are what R36 marks as general knowledge (log 4). -/
def Obligations.ResetLeavesTheSpecsValues : Prop :=
  (∀ j : Fin 80, readByte State.reset.mem (State.reset.fontBase.toNat + j.val) = defaultFontData.getD j.val 0) ∧
  (∀ a, a ≤ 0xFFF → a < State.reset.fontBase.toNat ∨ State.reset.fontBase.toNat + 80 ≤ a → readByte State.reset.mem a = 0x00) ∧
  (∀ x y, pixel State.reset.display x y = false) ∧
  State.reset.pc = 0x200 ∧ State.reset.i = 0x0000 ∧
  (∀ k : Fin 16, State.reset.stack[k] = 0x0000) ∧ State.reset.sp = 0 ∧
  State.reset.dt = 0 ∧ State.reset.st = 0 ∧
  (∀ x, State.reset.reg x = 0x00) ∧ (∀ k, State.reset.key k = false)

/-- 70_reset_and_hazards.md R280, 10_state.md R40: `Construct` with any parameters that 00_scope.md R8 allows, from any state. -/
def Obligations.ConstructBuildsTheResetState : Prop :=
  ∀ (s : State) (f : FontConfig) (rest : List HostOp), s.inputs = .construct f :: rest → f.wellFormed = true →
    ∃ t, step s = .next t ∧
      (∀ j : Fin 80, readByte t.mem (f.base.toNat + j.val) = f.data.getD j.val 0) ∧
      (∀ a, a ≤ 0xFFF → a < f.base.toNat ∨ f.base.toNat + 80 ≤ a → readByte t.mem a = 0x00) ∧
      (∀ x y, pixel t.display x y = false) ∧
      t.pc = 0x200 ∧ t.i = 0 ∧ (∀ k : Fin 16, t.stack[k] = 0) ∧ t.sp = 0 ∧ t.dt = 0 ∧ t.st = 0 ∧
      (∀ x, t.reg x = 0) ∧ (∀ k, t.key k = false) ∧ t.fontBase = f.base ∧ t.inputs = rest

/-- 70_reset_and_hazards.md R282, R283: the ROM verbatim from 0x200, nothing else changed; too long a ROM, nothing
written. -/
def Obligations.LoadRomStoresTheRomOrNothing : Prop :=
  ∀ (s : State) (bytes : List Byte) (rest : List HostOp), s.inputs = .loadROM bytes :: rest →
    (bytes.length ≤ 4096 - 0x200 → Memory.wf s.mem →
      ∃ t, step s = .next t ∧ t = { s with inputs := rest, mem := t.mem, result := .ok } ∧
        (∀ k : Fin bytes.length, readByte t.mem (0x200 + k.val) = bytes[k]) ∧
        (∀ a, a < 0x200 ∨ 0x200 + bytes.length ≤ a → readByte t.mem a = readByte s.mem a)) ∧
    (4096 - 0x200 < bytes.length → step s = .next { s with inputs := rest, result := .error .romTooLarge })

/-- 70_reset_and_hazards.md R284, R285: after `Construct` and one `LoadROM`, the next fetch is the ROM's first word, and every
cell above the ROM is 0. -/
def Obligations.BootFetchesTheRom : Prop :=
  ∀ (s : State) (f : FontConfig) (bytes : List Byte), s.inputs = [.construct f, .loadROM bytes] → f.wellFormed = true →
    ∀ (_ : 2 ≤ bytes.length), bytes.length ≤ 4096 - 0x200 →
      ∃ t, Host.Core.run core 2 s = .next t ∧ t.pc = 0x200 ∧ t.sp = 0 ∧ t.inputs = [] ∧
        t.fetch = .ok (BitVec.ofNat 16 (bytes[0].toNat * 256 + bytes[1].toNat)) ∧
        ∀ a, 0x200 + bytes.length ≤ a → a ≤ 0xFFF → readByte t.mem a = 0

/-- 60_exceptions.md R258: both timers move in one tick, each stops at 0, nothing else changes. -/
def Obligations.TimerTickDecrementsBothTimers : Prop :=
  ∀ (s : State) (rest : List HostOp), s.inputs = .timerTick :: rest →
    step s = .next { s with inputs := rest, dt := BitVec.ofNat 8 (s.dt.toNat - 1), st := BitVec.ofNat 8 (s.st.toNat - 1), result := .noResult }

/-- 60_exceptions.md R260: `SetKey(k, pressed)` sets `K[k]` and nothing else. -/
def Obligations.SetKeySetsOneKey : Prop :=
  ∀ (s : State) (k : Fin 16) (b : Bool) (rest : List HostOp), s.inputs = .setKey k b :: rest →
    ∃ t, step s = .next t ∧ (∀ j, t.key j = if j = k then b else s.key j) ∧
      t = { s with inputs := rest, keys := t.keys, result := .noResult }

/-- 60_exceptions.md R262: `Observe` changes nothing of the machine, and its answer holds every piece of it, the display
row-major with 0xFFFFFFFF for a set cell and 0x00000000 for a clear one. -/
def Obligations.ObserveShowsTheWholeState : Prop :=
  ∀ (s : State) (rest : List HostOp), s.inputs = .observe :: rest →
    step s = .next { s with inputs := rest, result := .noResult } ∧
    (∀ a, a ≤ 0xFFF → s.observation.memory[a]? = some (readByte s.mem a)) ∧
    (∀ (x : Fin 64) (y : Fin 32), s.observation.display[y.val * 64 + x.val]? =
      some (if pixel s.display x y then 0xFFFFFFFF#32 else 0x00000000#32)) ∧
    s.observation.pc = s.pc ∧ s.observation.index = s.i ∧ s.observation.sp = s.sp.val ∧
    (∀ k : Fin 16, s.observation.stack[k.val]? = some s.stack[k]) ∧
    s.observation.delayTimer = s.dt ∧ s.observation.soundTimer = s.st ∧
    (∀ x : Reg, s.observation.registers[x.val]? = some (s.reg x)) ∧
    (∀ k : Fin 16, s.observation.keypad[k.val]? = some (s.key k))

/-! ## The cycle -/

/-- 40_cycle.md R101, R103: when two bytes can be fetched at `pc` and the word they make, high byte first, decodes, the
step is the instruction's rule with `pc` past the instruction. -/
def Obligations.StepRunsTheDecodedInstruction : Prop :=
  ∀ (s : State) (i : Instr), s.cycleNext = true → s.pc.toNat + 1 ≤ 0xFFF →
    decode (BitVec.ofNat 16 ((readByte s.mem s.pc.toNat).toNat * 256 + (readByte s.mem (s.pc.toNat + 1)).toNat)) = some i →
    step s = exec i { s.cycleStart with pc := BitVec.ofNat 16 ((s.pc.toNat + 2) % 0x10000), result := .ok }

/-- 40_cycle.md R102: a fetch out of range changes nothing, `pc` is not advanced, every later `Cycle` raises the same
error, and no operation but `Construct` moves `pc`. -/
def Obligations.FetchOutOfRangeIsReportedForever : Prop :=
  ∀ s : State, 0xFFF < s.pc.toNat + 1 →
    (s.cycleNext = true → step s = .next
      { s.cycleStart with result := .error (.addressOutOfRange (if 0xFFF < s.pc.toNat then s.pc else 0x1000)) }) ∧
    (s.inputs = [] → ∀ n, Host.Core.run core (n + 1) s = .next
      { s with rand8 := none, result := .error (.addressOutOfRange (if 0xFFF < s.pc.toNat then s.pc else 0x1000)) }) ∧
    (∀ t, step s = .next t → (∀ f rest, s.inputs ≠ .construct f :: rest) → t.pc = s.pc)

/-- 40_cycle.md R106: an unknown word advances `pc`, changes nothing else and is reported with its whole word. -/
def Obligations.UnknownOpcodeIsReported : Prop :=
  ∀ (s : State) (w : Word), s.cycleNext = true → s.fetch = .ok w → decode w = none →
    step s = .next { s.cycleStart with pc := s.pc + 2, result := .error (.unknownOpcode w) }

/-- 40_cycle.md R107: after a successful fetch a `Cycle` returns `Ok`, or an error, and then nothing but the advance has
happened. -/
def Obligations.ErrorLeavesOnlyTheAdvance : Prop :=
  ∀ (s t : State) (w : Word), s.cycleNext = true → s.fetch = .ok w → step s = .next t →
    t.result = .ok ∨ ∃ e, t = { s.cycleStart with pc := s.pc + 2, result := .error e }

/-- 40_cycle.md R108, 10_state.md R33, R38: a `Cycle` never writes `K`, and it changes a timer only where the word it fetches
is FX15 or FX18. -/
def Obligations.CycleLeavesTimersAndKeysToTheHost : Prop :=
  ∀ s t : State, s.cycleNext = true → step s = .next t →
    t.keys = s.keys ∧ t.fontBase = s.fontBase ∧
    (t.dt ≠ s.dt → ∃ x, s.fetch = .ok (wordXNN 0xF#4 x 0x15#8) ∧ t.dt = s.reg x) ∧
    (t.st ≠ s.st → ∃ x, s.fetch = .ok (wordXNN 0xF#4 x 0x18#8) ∧ t.st = s.reg x)

/-- 40_cycle.md R105, 60_exceptions.md R266: every instruction answers a next state in every state. -/
def Obligations.EveryInstructionAnswers : Prop :=
  ∀ (i : Instr) (s : State), ∃ t, exec i s = .next t

/-- Every step answers a next state, but for a `Construct` outside the constraint of 00_scope.md R8, which the model refuses
(the model's choice, log 8). -/
def Obligations.EveryStepAnswers : Prop :=
  ∀ s : State, (∃ t, step s = .next t) ∨
    ∃ f rest, s.inputs = .construct f :: rest ∧ f.wellFormed = false ∧ step s = .refused .fontOutsideParameterRange

/-! ## Encoding -/

/-- 30_encoding.md R74, R84: the word of an instruction decodes to it, for every value of every operand. -/
def Obligations.DecodeOfEncode : Prop :=
  ∀ i : Instr, decode (encode i) = some i

/-- 30_encoding.md R75: a word that decodes is the word of its instruction, so no two words are one instruction. -/
def Obligations.EncodeOfDecode : Prop :=
  ∀ (w : Word) (i : Instr), decode w = some i → encode i = w

/-- 30_encoding.md R80: a word is an instruction of a row exactly when `w & mask = match`. Rows 10 to 18 hold the sub-opcodes
that R80 marks as general knowledge (log 13). -/
def Obligations.DecodeFollowsTheOpcodeTable : Prop :=
  ∀ (w : Word) (r : OpcodeRow), r ∈ opcodeTable → (w &&& r.mask = r.pattern ↔ ∃ i, decode w = some i ∧ i.row = r)

/-- 30_encoding.md R77, R78 and the list of 60_exceptions.md R254: the words that are no instruction. -/
def Obligations.UnknownWordsAreTheListedOnes : Prop :=
  ∀ w : Word, decode w = none ↔
    (w.toNat / 4096 = 0x0 ∧ w ≠ 0x00E0 ∧ w ≠ 0x00EE) ∨
    (w.toNat / 4096 = 0x5 ∧ w.toNat % 16 ≠ 0) ∨ (w.toNat / 4096 = 0x9 ∧ w.toNat % 16 ≠ 0) ∨
    (w.toNat / 4096 = 0x8 ∧ w.toNat % 16 ∈ [0x8, 0x9, 0xA, 0xB, 0xC, 0xD, 0xF]) ∨
    (w.toNat / 4096 = 0xE ∧ w.toNat % 256 ∉ [0x9E, 0xA1]) ∨
    (w.toNat / 4096 = 0xF ∧ w.toNat % 256 ∉ [0x07, 0x0A, 0x15, 0x18, 0x1E, 0x29, 0x33, 0x55, 0x65])

/-- Words written out from 30_encoding.md R80 and its examples (R84), decoded and assembled. -/
def Obligations.SampleWordsDecode : Prop :=
  decode 0b0000000011100000 = some .cls ∧ decode 0b0000000011101110 = some .ret ∧
  decode 0b0001001000110100 = some (.jp 0x234) ∧ decode 0b0110101000000010 = some (.ldVxNn 0xA 0x02) ∧
  decode 0b1000101010110100 = some (.addVxVy 0xA 0xB) ∧ decode 0b1101000100100101 = some (.drw 1 2 5) ∧
  decode 0b1110010110100001 = some (.sknp 5) ∧ decode 0b1111001001100101 = some (.ldVxMem 2) ∧
  assembleText ['D', 'R', 'W', ' ', 'V', '1', ',', ' ', 'V', '2', ',', ' ', '5'] = some 0xD125 ∧
  assembleText ['L', 'D', ' ', 'V', 'A', ',', ' ', '2'] = some 0x6A02

/-- 30_encoding.md R81, R82: every instruction has a well-formed statement that assembles to its word. -/
def Obligations.EveryInstructionHasAStatement : Prop :=
  ∀ i : Instr, ∃ st : AsmStatement, st.wellFormed = true ∧ st.assemble = some (encode i)

/-! ## Control flow -/

/-- 41_control_flow.md R122: the target is `NNN` as it stands. -/
def Obligations.JumpSetsPc : Prop :=
  ∀ (nnn : Addr12) (s : State), decode (wordNNN 0x1#4 nnn) = some (.jp nnn) ∧
    exec (.jp nnn) s = .next { s with pc := BitVec.ofNat 16 nnn.toNat }

/-- 41_control_flow.md R128: no reduction modulo 0x1000, the offset register is V0. -/
def Obligations.JumpWithOffsetAddsV0 : Prop :=
  ∀ (nnn : Addr12) (s : State), decode (wordNNN 0xB#4 nnn) = some (.jpV0Nnn nnn) ∧
    ∃ t, exec (.jpV0Nnn nnn) s = .next t ∧ t.pc.toNat = nnn.toNat + (s.reg 0).toNat ∧ t = { s with pc := t.pc }

/-- 41_control_flow.md R123: the address after the CALL is pushed; with 16 entries pushed, nothing changes and the overflow is
reported. -/
def Obligations.CallPushesTheReturnAddress : Prop :=
  ∀ (nnn : Addr12) (s : State), decode (wordNNN 0x2#4 nnn) = some (.call nnn) ∧
    (∀ k : Fin 16, s.sp = k.castSucc →
      exec (.call nnn) s = .next { s with stack := s.stack.set k s.pc, sp := k.succ, pc := BitVec.ofNat 16 nnn.toNat }) ∧
    (s.sp.val = 16 → exec (.call nnn) s = .next { s with result := .error .stackOverflow })

/-- 41_control_flow.md R121: the newest entry becomes `pc` and keeps its value; with nothing pushed, the underflow is
reported. -/
def Obligations.ReturnPopsTheReturnAddress : Prop :=
  ∀ s : State, decode 0x00EE = some .ret ∧
    (∀ k : Fin 16, s.sp = k.succ → exec .ret s = .next { s with sp := k.castSucc, pc := s.stack[k] }) ∧
    (s.sp.val = 0 → exec .ret s = .next { s with result := .error .stackUnderflow })

/-- 41_control_flow.md R129: a RET in any state with the stack the CALL left comes back to the word after the CALL, with the stack as
deep as before it. -/
def Obligations.ReturnUndoesCall : Prop :=
  ∀ (nnn : Addr12) (s t u : State), s.sp.val < 16 → exec (.call nnn) s = .next t →
    u.stack = t.stack → u.sp = t.sp → exec .ret u = .next { u with pc := s.pc, sp := s.sp }

/-- 41_control_flow.md R124, R125, with the skip of R120. -/
def Obligations.SkipsCompareWithAnImmediate : Prop :=
  ∀ (x : Reg) (nn : Byte) (s : State),
    decode (wordXNN 0x3#4 x nn) = some (.seVxNn x nn) ∧ decode (wordXNN 0x4#4 x nn) = some (.sneVxNn x nn) ∧
    exec (.seVxNn x nn) s = .next { s with pc := if s.reg x = nn then s.pc + 2 else s.pc } ∧
    exec (.sneVxNn x nn) s = .next { s with pc := if s.reg x ≠ nn then s.pc + 2 else s.pc }

/-- 41_control_flow.md R126, R127; with another low nibble the words are no instruction. -/
def Obligations.SkipsCompareTwoRegisters : Prop :=
  ∀ (x y : Reg) (s : State),
    decode (wordXYN 0x5#4 x y 0x0#4) = some (.seVxVy x y) ∧ decode (wordXYN 0x9#4 x y 0x0#4) = some (.sneVxVy x y) ∧
    (∀ n, n ≠ 0x0#4 → decode (wordXYN 0x5#4 x y n) = none ∧ decode (wordXYN 0x9#4 x y n) = none) ∧
    exec (.seVxVy x y) s = .next { s with pc := if s.reg x = s.reg y then s.pc + 2 else s.pc } ∧
    exec (.sneVxVy x y) s = .next { s with pc := if s.reg x ≠ s.reg y then s.pc + 2 else s.pc }

/-- 10_state.md R27: how each instruction leaves `pc`. -/
def Obligations.PcAfterEachInstruction : Prop :=
  ∀ (i : Instr) (s t : State), exec i s = .next t → t.pc = pcAfter i s

/-- 70_reset_and_hazards.md R292: at a self-jump every `Cycle` leaves the machine as it is. -/
def Obligations.SelfJumpIsAFixedPoint : Prop :=
  ∀ s : State, s.inputs = [] → s.atSelfJump → ∀ n, Host.Core.run core (n + 1) s = .next { s with rand8 := none, result := .ok }

/-! ## Arithmetic and logic -/

/-- 42_arithmetic_logic.md R152, R153: no flag; `X = 0xF` is an ordinary destination. -/
def Obligations.ImmediateLoadAndAdd : Prop :=
  ∀ (x : Reg) (nn : Byte) (s : State),
    decode (wordXNN 0x6#4 x nn) = some (.ldVxNn x nn) ∧ decode (wordXNN 0x7#4 x nn) = some (.addVxNn x nn) ∧
    exec (.ldVxNn x nn) s = .next { s with v := s.v.set x nn } ∧
    exec (.addVxNn x nn) s = .next { s with v := s.v.set x (BitVec.ofNat 8 (((s.reg x).toNat + nn.toNat) % 256)) }

/-- 42_arithmetic_logic.md R154 to R157: the copy and the three logic operations write Vx and no flag. The sub-opcodes are
what these rules mark as general knowledge (log 13). -/
def Obligations.CopyAndLogicWriteNoFlag : Prop :=
  ∀ (x y : Reg) (s : State),
    decode (wordXYN 0x8#4 x y 0x0#4) = some (.ldVxVy x y) ∧ decode (wordXYN 0x8#4 x y 0x1#4) = some (.orVxVy x y) ∧
    decode (wordXYN 0x8#4 x y 0x2#4) = some (.andVxVy x y) ∧ decode (wordXYN 0x8#4 x y 0x3#4) = some (.xorVxVy x y) ∧
    exec (.ldVxVy x y) s = .next { s with v := s.v.set x (s.reg y) } ∧
    exec (.orVxVy x y) s = .next { s with v := s.v.set x (BitVec.ofNat 8 ((s.reg x).toNat ||| (s.reg y).toNat)) } ∧
    exec (.andVxVy x y) s = .next { s with v := s.v.set x (BitVec.ofNat 8 ((s.reg x).toNat &&& (s.reg y).toNat)) } ∧
    exec (.xorVxVy x y) s = .next { s with v := s.v.set x (BitVec.ofNat 8 ((s.reg x).toNat ^^^ (s.reg y).toNat)) }

/-- 42_arithmetic_logic.md R158: the sum modulo 256, then the carry to VF. -/
def Obligations.AddSetsTheCarry : Prop :=
  ∀ (x y : Reg) (s : State), decode (wordXYN 0x8#4 x y 0x4#4) = some (.addVxVy x y) ∧
    exec (.addVxVy x y) s = .next { s with
      v := (s.v.set x (BitVec.ofNat 8 (((s.reg x).toNat + (s.reg y).toNat) % 256))).set (15 : Fin 16)
             (if 255 < (s.reg x).toNat + (s.reg y).toNat then 1 else 0) }

/-- 42_arithmetic_logic.md R159, R161: the difference modulo 256, then NOT borrow to VF. Sub-opcodes and polarity
are what these rules mark as general knowledge (log 13). -/
def Obligations.SubtractionsSetNotBorrow : Prop :=
  ∀ (x y : Reg) (s : State),
    decode (wordXYN 0x8#4 x y 0x5#4) = some (.subVxVy x y) ∧ decode (wordXYN 0x8#4 x y 0x7#4) = some (.subnVxVy x y) ∧
    exec (.subVxVy x y) s = .next { s with
      v := (s.v.set x (BitVec.ofInt 8 (((s.reg x).toNat : Int) - (s.reg y).toNat))).set (15 : Fin 16)
             (if (s.reg x).toNat ≥ (s.reg y).toNat then 1 else 0) } ∧
    exec (.subnVxVy x y) s = .next { s with
      v := (s.v.set x (BitVec.ofInt 8 (((s.reg y).toNat : Int) - (s.reg x).toNat))).set (15 : Fin 16)
             (if (s.reg y).toNat ≥ (s.reg x).toNat then 1 else 0) }

/-- 42_arithmetic_logic.md R160, R162: Vx is shifted by one, the bit shifted out goes to VF, Y has no effect.
Sub-opcodes and flag are what these rules mark as general knowledge (log 13). -/
def Obligations.ShiftsKeepTheBitShiftedOut : Prop :=
  ∀ (x y : Reg) (s : State),
    decode (wordXYN 0x8#4 x y 0x6#4) = some (.shrVx x y) ∧ decode (wordXYN 0x8#4 x y 0xE#4) = some (.shlVx x y) ∧
    exec (.shrVx x y) s = .next { s with
      v := (s.v.set x (BitVec.ofNat 8 ((s.reg x).toNat / 2))).set (15 : Fin 16) (BitVec.ofNat 8 ((s.reg x).toNat % 2)) } ∧
    exec (.shlVx x y) s = .next { s with
      v := (s.v.set x (BitVec.ofNat 8 ((2 * (s.reg x).toNat) % 256))).set (15 : Fin 16) (BitVec.ofNat 8 ((s.reg x).toNat / 128)) }

/-- 42_arithmetic_logic.md R163: the random byte the host handed to the `Cycle`, masked. -/
def Obligations.RandomByteIsMasked : Prop :=
  ∀ (x : Reg) (nn r : Byte) (s : State), s.rand8 = some r →
    decode (wordXNN 0xC#4 x nn) = some (.rndVxNn x nn) ∧
    exec (.rndVxNn x nn) s = .next { s with v := s.v.set x (BitVec.ofNat 8 (r.toNat &&& nn.toNat)) }

/-- The model's choice (log 2): where the host's schedule does not fix the random byte, it is the next free value. -/
def Obligations.RandomByteIsFreeOtherwise : Prop :=
  ∀ (x : Reg) (nn : Byte) (s : State), s.rand8 = none →
    exec (.rndVxNn x nn) s = .next { s with v := s.v.set x (Config.freeRand8 s.draws &&& nn), draws := s.draws + 1 }

/-! ## Display -/

/-- 43_display.md R191: every cell is clear, whatever the display held, and nothing else changes. -/
def Obligations.ClearScreenClearsEveryCell : Prop :=
  decode 0x00E0 = some .cls ∧ ∀ s : State, ∃ t, exec .cls s = .next t ∧ (∀ x y, pixel t.display x y = false) ∧
    t = { s with display := t.display }

/-- 43_display.md R192: every on pixel of the sprite within the screen flips its cell, every other cell is unchanged, VF is 1
exactly when an on pixel met an on cell; with a sprite byte above 0xFFF nothing changes and the error is reported. That bit 7
is the leftmost pixel is what R190 and D13 mark as general knowledge (log 13). -/
def Obligations.DrawXorsTheSprite : Prop :=
  ∀ (x y : Reg) (n : Fin 16) (s : State), decode (wordXYN 0xD#4 x y (BitVec.ofNat 4 n.val)) = some (.drw x y n) ∧
    (n.val = 0 ∨ s.i.toNat + n.val - 1 ≤ 0xFFF → ∃ t hit, exec (.drw x y n) s = .next t ∧
      (∀ col row, pixel t.display col row = (pixel s.display col row ^^ spriteOn s x y n col row)) ∧
      (hit = true ↔ ∃ col row, spriteOn s x y n col row = true ∧ pixel s.display col row = true) ∧
      t = { s with display := t.display, v := s.v.set (15 : Fin 16) (if hit then 1 else 0) }) ∧
    (0 < n.val ∧ 0xFFF < s.i.toNat + n.val - 1 → exec (.drw x y n) s =
      .next { s with result := .error (.addressOutOfRange (if 0xFFF < s.i.toNat then s.i else 0x1000)) })

/-- 43_display.md R194: the collision flag says that some cell that was on is off after the draw. -/
def Obligations.CollisionMeansACellWasTurnedOff : Prop :=
  ∀ (x y : Reg) (n : Fin 16) (s t : State), (n.val = 0 ∨ s.i.toNat + n.val - 1 ≤ 0xFFF) → exec (.drw x y n) s = .next t →
    (t.reg 15 = 1 ↔ ∃ col row, pixel s.display col row = true ∧ pixel t.display col row = false) ∧
    (t.reg 15 = 0 ∨ t.reg 15 = 1)

/-- 43_display.md R195: no mask on `vx`, no error. -/
def Obligations.FontAddressOfAnyByte : Prop :=
  ∀ (x : Reg) (s : State), decode (wordXNN 0xF#4 x 0x29#8) = some (.ldFVx x) ∧
    exec (.ldFVx x) s = .next { s with i := BitVec.ofNat 16 (s.fontBase.toNat + 5 * (s.reg x).toNat) }

/-! ## Index register and memory -/

/-- 44_index_memory.md R210, R211: `I` alone changes, VF does not (the spec's decision D12). -/
def Obligations.IndexLoadAndAdd : Prop :=
  ∀ (nnn : Addr12) (x : Reg) (s : State),
    decode (wordNNN 0xA#4 nnn) = some (.ldINnn nnn) ∧ decode (wordXNN 0xF#4 x 0x1E#8) = some (.addIVx x) ∧
    exec (.ldINnn nnn) s = .next { s with i := BitVec.ofNat 16 nnn.toNat } ∧
    exec (.addIVx x) s = .next { s with i := BitVec.ofNat 16 ((s.i.toNat + (s.reg x).toNat) % 0x10000) }

/-- 44_index_memory.md R212: the three digits at `I`, `I + 1`, `I + 2`, nothing else; out of range, nothing. -/
def Obligations.DecimalDigitsAreStored : Prop :=
  ∀ (x : Reg) (s : State), decode (wordXNN 0xF#4 x 0x33#8) = some (.ldBVx x) ∧
    (s.i.toNat + 2 ≤ 0xFFF → Memory.wf s.mem → ∃ t, exec (.ldBVx x) s = .next t ∧ t = { s with mem := t.mem } ∧
      (readByte t.mem s.i.toNat).toNat = (s.reg x).toNat / 100 ∧
      (readByte t.mem (s.i.toNat + 1)).toNat = (s.reg x).toNat / 10 % 10 ∧
      (readByte t.mem (s.i.toNat + 2)).toNat = (s.reg x).toNat % 10 ∧
      ∀ a, a < s.i.toNat ∨ s.i.toNat + 2 < a → readByte t.mem a = readByte s.mem a) ∧
    (0xFFF < s.i.toNat + 2 → exec (.ldBVx x) s =
      .next { s with result := .error (.addressOutOfRange (if 0xFFF < s.i.toNat then s.i else 0x1000)) })

/-- 44_index_memory.md R213: V0 to Vx at `I` to `I + X`, nothing else; out of range, nothing. -/
def Obligations.RegistersAreStored : Prop :=
  ∀ (x : Reg) (s : State), decode (wordXNN 0xF#4 x 0x55#8) = some (.ldMemVx x) ∧
    (s.i.toNat + x.val ≤ 0xFFF → Memory.wf s.mem → ∃ t, exec (.ldMemVx x) s = .next t ∧ t = { s with mem := t.mem } ∧
      (∀ k : Reg, k ≤ x → readByte t.mem (s.i.toNat + k.val) = s.reg k) ∧
      ∀ a, a < s.i.toNat ∨ s.i.toNat + x.val < a → readByte t.mem a = readByte s.mem a) ∧
    (0xFFF < s.i.toNat + x.val → exec (.ldMemVx x) s =
      .next { s with result := .error (.addressOutOfRange (if 0xFFF < s.i.toNat then s.i else 0x1000)) })

/-- 44_index_memory.md R214: V0 to Vx from `I` to `I + X`, nothing else; out of range, nothing. -/
def Obligations.RegistersAreLoaded : Prop :=
  ∀ (x : Reg) (s : State), decode (wordXNN 0xF#4 x 0x65#8) = some (.ldVxMem x) ∧
    (s.i.toNat + x.val ≤ 0xFFF → ∃ t, exec (.ldVxMem x) s = .next t ∧ t = { s with v := t.v } ∧
      ∀ k : Reg, t.reg k = if k ≤ x then readByte s.mem (s.i.toNat + k.val) else s.reg k) ∧
    (0xFFF < s.i.toNat + x.val → exec (.ldVxMem x) s =
      .next { s with result := .error (.addressOutOfRange (if 0xFFF < s.i.toNat then s.i else 0x1000)) })

/-- 20_memory.md R64: a word stored by FX55 where the next `Cycle` fetches is the word it fetches. -/
def Obligations.StoreIsSeenByTheNextFetch : Prop :=
  ∀ (x : Reg) (s t : State), Memory.wf s.mem → s.i.toNat + x.val ≤ 0xFFF → exec (.ldMemVx x) s = .next t →
    ∀ j k : Reg, k.val = j.val + 1 → k ≤ x → s.pc.toNat = s.i.toNat + j.val →
      t.fetch = .ok (BitVec.ofNat 16 ((s.reg j).toNat * 256 + (s.reg k).toNat))

/-- Equal memories are equal data: two memories in canonical form that read alike everywhere are one list (log 5). -/
def Obligations.MemoriesThatReadAlikeAreEqual : Prop :=
  ∀ m m' : Memory, m.wf → m'.wf → (∀ a, a ≤ 0xFFF → readByte m a = readByte m' a) → m = m'

/-! ## Timers and keypad -/

/-- 45_timer_keypad.md R233, R234, R235; which word does which is R237's, which marks it as general knowledge (log 13). -/
def Obligations.TimerTransfers : Prop :=
  ∀ (x : Reg) (s : State),
    decode (wordXNN 0xF#4 x 0x07#8) = some (.ldVxDt x) ∧ decode (wordXNN 0xF#4 x 0x15#8) = some (.ldDtVx x) ∧
    decode (wordXNN 0xF#4 x 0x18#8) = some (.ldStVx x) ∧
    exec (.ldVxDt x) s = .next { s with v := s.v.set x s.dt } ∧
    exec (.ldDtVx x) s = .next { s with dt := s.reg x } ∧ exec (.ldStVx x) s = .next { s with st := s.reg x }

/-- 45_timer_keypad.md R230, R231, R232: the skip on the named key; above 0xF, the error and nothing else (the spec's decision
D18). -/
def Obligations.KeySkipsReadTheNamedKey : Prop :=
  ∀ (x : Reg) (s : State),
    decode (wordXNN 0xE#4 x 0x9E#8) = some (.skp x) ∧ decode (wordXNN 0xE#4 x 0xA1#8) = some (.sknp x) ∧
    (∀ k : Fin 16, (s.reg x).toNat = k.val →
      exec (.skp x) s = .next { s with pc := if s.key k = true then s.pc + 2 else s.pc } ∧
      exec (.sknp x) s = .next { s with pc := if s.key k = false then s.pc + 2 else s.pc }) ∧
    (0xF < (s.reg x).toNat →
      exec (.skp x) s = .next { s with result := .error (.keyOutOfRange (s.reg x)) } ∧
      exec (.sknp x) s = .next { s with result := .error (.keyOutOfRange (s.reg x)) })

/-- 45_timer_keypad.md R236: the lowest pressed key, or `pc` back at the instruction and nothing else. -/
def Obligations.KeyWaitTakesTheLowestKey : Prop :=
  ∀ (x : Reg) (s : State), decode (wordXNN 0xF#4 x 0x0A#8) = some (.ldVxK x) ∧
    (∀ k : Fin 16, s.key k = true → (∀ j, j < k → s.key j = false) →
      exec (.ldVxK x) s = .next { s with v := s.v.set x (BitVec.ofNat 8 k.val) }) ∧
    ((∀ k, s.key k = false) → exec (.ldVxK x) s = .next { s with pc := s.pc - 2 })

/-- 60_exceptions.md R269: a wait stays at its `pc` for any number of `Cycle`s and changes nothing; a pressed key ends it. -/
def Obligations.KeyWaitRepeatsUntilAKeyIsPressed : Prop :=
  ∀ (x : Reg) (s : State), s.inputs = [] → s.fetch = .ok (wordXNN 0xF#4 x 0x0A#8) → (∀ k, s.key k = false) →
    (∀ n, Host.Core.run core (n + 1) s = .next { s with rand8 := none, result := .ok }) ∧
    ∀ (k : Fin 16), Host.Core.run core 2 { s with inputs := [.setKey k true] } =
      .next { s with keys := s.keys.set k true, rand8 := none, result := .ok, pc := s.pc + 2, v := s.v.set x (BitVec.ofNat 8 k.val) }

/-! ## What no instruction, and what only some instructions, can do -/

/-- 10_state.md R30, R31, R33, R37, R38 and 20_memory.md R55: which instructions can change each piece of state. The pieces
an instruction leaves alone are its frame. -/
def Obligations.OnlyTheNamedInstructionsWriteEachPiece : Prop :=
  ∀ (i : Instr) (s t : State), exec i s = .next t →
    (t.mem ≠ s.mem → ∃ x, i = .ldBVx x ∨ i = .ldMemVx x) ∧
    (t.display ≠ s.display → i = .cls ∨ ∃ x y n, i = .drw x y n) ∧
    (t.i ≠ s.i → (∃ nnn, i = .ldINnn nnn) ∨ ∃ x, i = .addIVx x ∨ i = .ldFVx x) ∧
    (t.sp ≠ s.sp → i = .ret ∨ ∃ nnn, i = .call nnn) ∧
    (t.stack ≠ s.stack → ∃ nnn, i = .call nnn) ∧
    (t.dt ≠ s.dt → ∃ x, i = .ldDtVx x) ∧
    (t.st ≠ s.st → ∃ x, i = .ldStVx x) ∧
    (t.draws ≠ s.draws → ∃ x nn, i = .rndVxNn x nn) ∧
    t.keys = s.keys ∧ t.fontBase = s.fontBase ∧ t.inputs = s.inputs ∧ t.rand8 = s.rand8

/-- 10_state.md R23: a general register changes only by an instruction that names it as a destination, VF also by the
flag-setting ones. -/
def Obligations.OnlyDestinationRegistersChange : Prop :=
  ∀ (i : Instr) (s t : State) (r : Reg), exec i s = .next t → t.reg r ≠ s.reg r → mayWriteReg i r = true

/-- 40_cycle.md R100: the random byte is read only by CXNN. -/
def Obligations.OnlyRndReadsTheRandomByte : Prop :=
  ∀ (i : Instr) (s t : State) (r : Option Byte) (d : Nat), (∀ x nn, i ≠ .rndVxNn x nn) → exec i s = .next t →
    exec i { s with rand8 := r, draws := d } = .next { t with rand8 := r, draws := d }

/-- 60_exceptions.md R259, 10_state.md R33: no instruction reads `ST`. -/
def Obligations.NoInstructionReadsTheSoundTimer : Prop :=
  ∀ (i : Instr) (s t : State) (b : Byte), exec i s = .next t →
    ∃ c, exec i { s with st := b } = .next { t with st := c } ∧ ((∀ x, i ≠ .ldStVx x) → c = b) ∧ ((∃ x, i = .ldStVx x) → c = t.st)

/-- 10_state.md R38, 20_memory.md R51: the keypad is read only by EX9E, EXA1 and FX0A. -/
def Obligations.OnlyKeyInstructionsReadTheKeypad : Prop :=
  ∀ (i : Instr) (s t : State) (ks : Vector Bool 16), (∀ x, i ≠ .skp x ∧ i ≠ .sknp x ∧ i ≠ .ldVxK x) → exec i s = .next t →
    exec i { s with keys := ks } = .next { t with keys := ks }

/-! ## The invariant -/

/-- The invariant holds at reset. -/
def Obligations.ResetMeetsTheInvariant : Prop := State.Inv State.reset

/-- Every step keeps the invariant, whatever the host calls: memory stays canonical and within 0..0xFFF, `pc` stays at most
0x10FE, stack entries at most 0x1000, the font below the program (10_state.md R29, 00_scope.md R8). -/
def Obligations.EveryStepKeepsTheInvariant : Prop :=
  ∀ s t : State, s.Inv → step s = .next t → t.Inv
end

