-- ==== Sys2Proof/Laws/Decode.lean ====
section
/-! SUPPORT. The fields of a word built from its fields (30_encoding.md R71, R72), as numbers. -/

namespace Sys2Proof

/-! ### Words as numbers -/

theorem toNat_appended {v w : Nat} (a : BitVec v) (b : BitVec w) : (a ++ b).toNat = a.toNat * 2 ^ w + b.toNat := by
  rw [BitVec.toNat_append, Nat.shiftLeft_eq, Nat.mul_comm, ← Nat.two_pow_add_eq_or_of_lt b.isLt]

theorem toNat_wordNNN (op : BitVec 4) (nnn : Addr12) : (wordNNN op nnn).toNat = op.toNat * 4096 + nnn.toNat :=
  toNat_appended op nnn

theorem toNat_wordXNN (op : BitVec 4) (x : Reg) (nn : Byte) :
    (wordXNN op x nn).toNat = op.toNat * 4096 + x.val * 256 + nn.toNat := by
  refine (toNat_appended (op ++ (BitVec.ofFin x : BitVec 4)) nn).trans ?_
  have hx : (BitVec.ofFin x : BitVec 4).toNat = x.val := rfl
  rw [toNat_appended, hx]
  omega

theorem toNat_wordXYN (op : BitVec 4) (x y : Reg) (n : BitVec 4) :
    (wordXYN op x y n).toNat = op.toNat * 4096 + x.val * 256 + y.val * 16 + n.toNat := by
  refine (toNat_appended (op ++ (BitVec.ofFin x : BitVec 4) ++ (BitVec.ofFin y : BitVec 4)) n).trans ?_
  have hx : (BitVec.ofFin x : BitVec 4).toNat = x.val := rfl
  have hy : (BitVec.ofFin y : BitVec 4).toNat = y.val := rfl
  rw [toNat_appended, toNat_appended, hx, hy]
  omega

theorem toNat_fieldOp (w : Word) : (fieldOp w).toNat = w.toNat / 4096 % 16 := by
  simp [fieldOp, Nat.shiftRight_eq_div_pow]

theorem val_fieldX (w : Word) : (fieldX w).val = w.toNat / 256 % 16 := by
  simp [fieldX, Nat.shiftRight_eq_div_pow]

theorem val_fieldY (w : Word) : (fieldY w).val = w.toNat / 16 % 16 := by
  simp [fieldY, Nat.shiftRight_eq_div_pow]

theorem toNat_fieldSub (w : Word) : (fieldSub w).toNat = w.toNat % 16 := by
  simp [fieldSub]

theorem val_fieldN (w : Word) : (fieldN w).val = w.toNat % 16 := by
  simp [fieldN]

theorem toNat_fieldNN (w : Word) : (fieldNN w).toNat = w.toNat % 256 := by
  simp [fieldNN]

theorem toNat_fieldNNN (w : Word) : (fieldNNN w).toNat = w.toNat % 4096 := by
  simp [fieldNNN]

/-! ### The fields of a built word -/

section

variable (op n : BitVec 4) (nnn : Addr12) (nn : Byte) (x y : Reg)

@[simp] theorem fieldOp_wordNNN : fieldOp (wordNNN op nnn) = op := by
  apply BitVec.eq_of_toNat_eq; rw [toNat_fieldOp, toNat_wordNNN]; omega

@[simp] theorem fieldNNN_wordNNN : fieldNNN (wordNNN op nnn) = nnn := by
  apply BitVec.eq_of_toNat_eq; rw [toNat_fieldNNN, toNat_wordNNN]; omega

@[simp] theorem fieldOp_wordXNN : fieldOp (wordXNN op x nn) = op := by
  apply BitVec.eq_of_toNat_eq; rw [toNat_fieldOp, toNat_wordXNN]; omega

@[simp] theorem fieldX_wordXNN : fieldX (wordXNN op x nn) = x := by
  apply Fin.ext; rw [val_fieldX, toNat_wordXNN]; omega

@[simp] theorem fieldNN_wordXNN : fieldNN (wordXNN op x nn) = nn := by
  apply BitVec.eq_of_toNat_eq; rw [toNat_fieldNN, toNat_wordXNN]; omega

@[simp] theorem fieldOp_wordXYN : fieldOp (wordXYN op x y n) = op := by
  apply BitVec.eq_of_toNat_eq; rw [toNat_fieldOp, toNat_wordXYN]; omega

@[simp] theorem fieldX_wordXYN : fieldX (wordXYN op x y n) = x := by
  apply Fin.ext; rw [val_fieldX, toNat_wordXYN]; omega

@[simp] theorem fieldY_wordXYN : fieldY (wordXYN op x y n) = y := by
  apply Fin.ext; rw [val_fieldY, toNat_wordXYN]; omega

@[simp] theorem fieldSub_wordXYN : fieldSub (wordXYN op x y n) = n := by
  apply BitVec.eq_of_toNat_eq; rw [toNat_fieldSub, toNat_wordXYN]; omega

@[simp] theorem fieldN_wordXYN : fieldN (wordXYN op x y n) = n.toFin := by
  apply Fin.ext; rw [val_fieldN, toNat_wordXYN]; simp only [BitVec.val_toFin]; omega

end

/-! ### The masks of 30_encoding.md R80 -/

theorem wordNNN_and_classMask (op : BitVec 4) (nnn : Addr12) : wordNNN op nnn &&& 0xF000#16 = wordNNN op 0 := by
  refine (BitVec.and_append (x₁ := op) (x₂ := 0xF#4) (y₁ := nnn) (y₂ := 0#12)).trans ?_
  rw [BitVec.and_zero, show op &&& 0xF#4 = op from BitVec.and_allOnes]
  rfl

theorem wordXNN_and_classMask (op : BitVec 4) (x : Reg) (nn : Byte) : wordXNN op x nn &&& 0xF000#16 = wordXNN op 0 0 := by
  refine (BitVec.and_append (x₁ := op ++ (BitVec.ofFin x : BitVec 4)) (x₂ := 0xF#4 ++ 0x0#4) (y₁ := nn) (y₂ := 0#8)).trans ?_
  rw [BitVec.and_append, BitVec.and_zero, BitVec.and_zero, show op &&& 0xF#4 = op from BitVec.and_allOnes]
  rfl

theorem wordXNN_and_byteMask (op : BitVec 4) (x : Reg) (nn : Byte) : wordXNN op x nn &&& 0xF0FF#16 = wordXNN op 0 nn := by
  refine (BitVec.and_append (x₁ := op ++ (BitVec.ofFin x : BitVec 4)) (x₂ := 0xF#4 ++ 0x0#4) (y₁ := nn) (y₂ := 0xFF#8)).trans ?_
  rw [BitVec.and_append, BitVec.and_zero, show nn &&& 0xFF#8 = nn from BitVec.and_allOnes,
    show op &&& 0xF#4 = op from BitVec.and_allOnes]
  rfl

theorem wordXYN_and_nibbleMask (op n : BitVec 4) (x y : Reg) : wordXYN op x y n &&& 0xF00F#16 = wordXYN op 0 0 n := by
  refine (BitVec.and_append (x₁ := op ++ (BitVec.ofFin x : BitVec 4) ++ (BitVec.ofFin y : BitVec 4))
    (x₂ := 0xF#4 ++ 0x0#4 ++ 0x0#4) (y₁ := n) (y₂ := 0xF#4)).trans ?_
  rw [BitVec.and_append, BitVec.and_append, BitVec.and_zero, BitVec.and_zero, show n &&& 0xF#4 = n from BitVec.and_allOnes,
    show op &&& 0xF#4 = op from BitVec.and_allOnes]
  rfl

theorem wordXYN_and_classMask (op n : BitVec 4) (x y : Reg) : wordXYN op x y n &&& 0xF000#16 = wordXYN op 0 0 0 := by
  refine (BitVec.and_append (x₁ := op ++ (BitVec.ofFin x : BitVec 4) ++ (BitVec.ofFin y : BitVec 4))
    (x₂ := 0xF#4 ++ 0x0#4 ++ 0x0#4) (y₁ := n) (y₂ := 0x0#4)).trans ?_
  rw [BitVec.and_append, BitVec.and_append, BitVec.and_zero, BitVec.and_zero, BitVec.and_zero,
    show op &&& 0xF#4 = op from BitVec.and_allOnes]
  rfl

/-! ### A word from its fields -/

theorem wordNNN_fields (w : Word) : wordNNN (fieldOp w) (fieldNNN w) = w := by
  apply BitVec.eq_of_toNat_eq; rw [toNat_wordNNN, toNat_fieldOp, toNat_fieldNNN]; omega

theorem wordXNN_fields (w : Word) : wordXNN (fieldOp w) (fieldX w) (fieldNN w) = w := by
  apply BitVec.eq_of_toNat_eq; rw [toNat_wordXNN, toNat_fieldOp, val_fieldX, toNat_fieldNN]; omega

theorem wordXYN_fields (w : Word) : wordXYN (fieldOp w) (fieldX w) (fieldY w) (fieldSub w) = w := by
  apply BitVec.eq_of_toNat_eq; rw [toNat_wordXYN, toNat_fieldOp, val_fieldX, val_fieldY, toNat_fieldSub]; omega

theorem ofFin_fieldN (w : Word) : (BitVec.ofFin (fieldN w) : BitVec 4) = fieldSub w := rfl

/-- The two bytes of a word make the word again (20_memory.md R52). -/
theorem wordOfBytes_bytesOfWord (w : Word) : wordOfBytes (w.extractLsb' 8 8) (w.extractLsb' 0 8) = w := by
  apply BitVec.eq_of_toNat_eq
  refine (toNat_appended (w.extractLsb' 8 8) (w.extractLsb' 0 8)).trans ?_
  simp only [BitVec.extractLsb'_toNat, Nat.shiftRight_eq_div_pow]
  omega

/-! ### The checks of a statement's operands (30_encoding.md R81), at every value in range -/

@[simp] theorem checkReg_val (x : Reg) : checkReg x.val = some x := by simp [checkReg]

@[simp] theorem checkHeight_val (n : Fin 16) : checkHeight n.val = some n := by simp [checkHeight]

@[simp] theorem checkImm8_toNat (nn : Byte) : checkImm8 nn.toNat = some nn := by
  have := nn.isLt
  rw [checkImm8, if_pos (by omega), BitVec.ofNat_toNat, BitVec.setWidth_eq]

@[simp] theorem checkAddr12_toNat (nnn : Addr12) : checkAddr12 nnn.toNat = some nnn := by
  have := nnn.isLt
  rw [checkAddr12, if_pos (by omega), BitVec.ofNat_toNat, BitVec.setWidth_eq]

/-- A statement that checks is well-formed, and assembles to its instruction's word. -/
theorem assemble_of_check {st : AsmStatement} {i : Instr} (h : st.check = some i) :
    st.wellFormed = true ∧ st.assemble = some (encode i) := by
  simp [AsmStatement.wellFormed, AsmStatement.assemble, h]

end Sys2Proof
end

