-- ==== Sys2Proof/Laws/Draw.lean ====
section
/-! SUPPORT. What drawing one pixel, one sprite row and a whole sprite does to every cell and to the collision (43_display.md R192). -/

namespace Sys2Proof

namespace Machine

theorem pixel_setPixel (d : Display) (x x' : Fin 64) (y y' : Fin 32) (b : Bool) :
    pixel (setPixel d x y b) x' y' = if x = x' ∧ y = y' then b else pixel d x' y' := by
  by_cases hy : y = y'
  · subst hy
    by_cases hx : x = x'
    · subst hx; simp [pixel, setPixel]
    · have : x.val ≠ x'.val := fun h => hx (Fin.ext h)
      simp [pixel, setPixel, hx, Vector.getElem_set_ne _ _ this]
  · have : y.val ≠ y'.val := fun h => hy (Fin.ext h)
    simp [pixel, setPixel, hy, Vector.getElem_set_ne _ _ this]

@[simp] theorem pixel_clearDisplay (x : Fin 64) (y : Fin 32) : pixel clearDisplay x y = false := by
  simp [pixel, clearDisplay]

/-- A pixel flips its own cell when it is on, and no other cell. -/
theorem pixel_drawPixel (g : Drawing) (a b : Nat) (on : Bool) (x : Fin 64) (y : Fin 32) :
    pixel (drawPixel g a b on).display x y = (pixel g.display x y ^^ (on && decide (a = x.val ∧ b = y.val))) := by
  unfold drawPixel
  split
  · next h =>
    cases on
    · simp
    · by_cases hxy : a = x.val ∧ b = y.val
      · obtain ⟨rfl, rfl⟩ := hxy
        simp [pixel_setPixel]
      · have : ¬((⟨a, h.1⟩ : Fin 64) = x ∧ (⟨b, h.2⟩ : Fin 32) = y) := fun e =>
          hxy ⟨congrArg Fin.val e.1, congrArg Fin.val e.2⟩
        rw [if_pos rfl, pixel_setPixel, if_neg this, decide_eq_false hxy, Bool.and_false, Bool.xor_false]
  · next h =>
    have : ¬(a = x.val ∧ b = y.val) := fun e => h ⟨e.1 ▸ x.isLt, e.2 ▸ y.isLt⟩
    simp [this]

/-- A pixel sets the collision when it is on and its cell was on. -/
theorem collision_drawPixel (g : Drawing) (a b : Nat) (on : Bool) :
    (drawPixel g a b on).collision = true ↔
      g.collision = true ∨ ∃ (x : Fin 64) (y : Fin 32), on = true ∧ a = x.val ∧ b = y.val ∧ pixel g.display x y = true := by
  unfold drawPixel
  split
  · next h =>
    cases on
    · simp
    · simp only [if_true, Bool.or_eq_true]
      refine or_congr_right ⟨fun e => ⟨⟨a, h.1⟩, ⟨b, h.2⟩, trivial, rfl, rfl, e⟩, ?_⟩
      rintro ⟨x, y, -, rfl, rfl, e⟩
      exact e
  · next h =>
    refine ⟨.inl, ?_⟩
    rintro (e | ⟨x, y, -, rfl, rfl, -⟩)
    · exact e
    · exact absurd ⟨x.isLt, y.isLt⟩ h

/-- The first `n` columns of a sprite row. -/
theorem drawColumns (g : Drawing) (x0 b : Nat) (row : Byte) (n : Nat) :
    let g' := (List.range n).foldl (fun g c => drawPixel g (x0 + c) b (spriteBit row c)) g
    (∀ (x : Fin 64) (y : Fin 32), pixel g'.display x y =
      (pixel g.display x y ^^ decide (b = y.val ∧ x0 ≤ x.val ∧ x.val < x0 + n ∧ spriteBit row (x.val - x0) = true))) ∧
    (g'.collision = true ↔ g.collision = true ∨ ∃ (x : Fin 64) (y : Fin 32),
      (b = y.val ∧ x0 ≤ x.val ∧ x.val < x0 + n ∧ spriteBit row (x.val - x0) = true) ∧ pixel g.display x y = true) := by
  induction n with
  | zero =>
    refine ⟨fun x y => ?_, ?_⟩
    · have : ¬(b = y.val ∧ x0 ≤ x.val ∧ x.val < x0 + 0 ∧ spriteBit row (x.val - x0) = true) := by omega
      rw [decide_eq_false this, Bool.xor_false]
      rfl
    · refine ⟨.inl, ?_⟩
      rintro (e | ⟨x, y, h, -⟩)
      · exact e
      · omega
  | succ n ih =>
    simp only [List.range_succ, List.foldl_append, List.foldl_cons, List.foldl_nil]
    obtain ⟨hp, hc⟩ := ih
    refine ⟨fun x y => ?_, ?_⟩
    · rw [pixel_drawPixel, hp x y, Bool.xor_assoc]
      congr 1
      by_cases hx : x0 + n = x.val
      · have e : x.val - x0 = n := by omega
        rw [e, decide_eq_false (p := b = y.val ∧ x0 ≤ x.val ∧ x.val < x0 + n ∧ spriteBit row n = true) (by omega),
          Bool.false_xor]
        cases spriteBit row n
        · simp
        · simp [hx]; omega
      · have h1 : ¬(x0 + n = x.val ∧ b = y.val) := fun e => hx e.1
        rw [decide_eq_false h1, Bool.and_false, Bool.xor_false]
        refine decide_eq_decide.2 (and_congr_right fun _ => and_congr_right fun _ => and_congr_left fun _ => ?_)
        omega
    · rw [collision_drawPixel, hc, or_assoc]
      refine or_congr_right ⟨?_, ?_⟩
      · rintro (⟨x, y, ⟨h1, h2, h3, h4⟩, h5⟩ | ⟨x, y, h1, h2, h3, h4⟩)
        · exact ⟨x, y, ⟨h1, h2, by omega, h4⟩, h5⟩
        · refine ⟨x, y, ⟨h3, by omega, by omega, ?_⟩, ?_⟩
          · rwa [show x.val - x0 = n by omega]
          · rw [hp x y, decide_eq_false (by omega), Bool.xor_false] at h4
            exact h4
      · rintro ⟨x, y, ⟨h1, h2, h3, h4⟩, h5⟩
        by_cases hx : x0 + n = x.val
        · refine .inr ⟨x, y, ?_, hx, h1, ?_⟩
          · rwa [show x.val - x0 = n by omega] at h4
          · rw [hp x y, decide_eq_false (by omega), Bool.xor_false]
            exact h5
        · exact .inl ⟨x, y, ⟨h1, h2, by omega, h4⟩, h5⟩

/-- One sprite row: its on pixels within the screen flip their cells, and no other cell changes. -/
theorem pixel_drawRow (g : Drawing) (x0 b : Nat) (row : Byte) (x : Fin 64) (y : Fin 32) :
    pixel (drawRow g x0 b row).display x y =
      (pixel g.display x y ^^ decide (b = y.val ∧ x0 ≤ x.val ∧ x.val < x0 + 8 ∧ spriteBit row (x.val - x0) = true)) :=
  (drawColumns g x0 b row 8).1 x y

/-- One sprite row collides when one of its on pixels meets a cell that was on. -/
theorem collision_drawRow (g : Drawing) (x0 b : Nat) (row : Byte) :
    (drawRow g x0 b row).collision = true ↔ g.collision = true ∨ ∃ (x : Fin 64) (y : Fin 32),
      (b = y.val ∧ x0 ≤ x.val ∧ x.val < x0 + 8 ∧ spriteBit row (x.val - x0) = true) ∧ pixel g.display x y = true :=
  (drawColumns g x0 b row 8).2

/-- A cell is covered by an on pixel of the sprite whose rows stand from row `b` down and whose leftmost column is `x0`. -/
abbrev spriteCovers (x0 b : Nat) (rows : List Byte) (x : Fin 64) (y : Fin 32) : Prop :=
  b ≤ y.val ∧ y.val < b + rows.length ∧ x0 ≤ x.val ∧ x.val < x0 + 8 ∧
    spriteBit (rows.getD (y.val - b) 0) (x.val - x0) = true

theorem spriteCovers_cons (x0 b : Nat) (row : Byte) (rows : List Byte) (x : Fin 64) (y : Fin 32) :
    spriteCovers x0 b (row :: rows) x y ↔
      (b = y.val ∧ x0 ≤ x.val ∧ x.val < x0 + 8 ∧ spriteBit row (x.val - x0) = true) ∨ spriteCovers x0 (b + 1) rows x y := by
  simp only [spriteCovers, List.length_cons]
  rcases Nat.lt_trichotomy b y.val with h | h | h
  · obtain ⟨k, hk⟩ := Nat.exists_eq_add_of_lt h
    rw [hk, show b + k + 1 - b = k + 1 by omega, show b + k + 1 - (b + 1) = k by omega, List.getD_cons_succ]
    refine ⟨fun ⟨_, h2, h3⟩ => .inr ⟨by omega, by omega, h3⟩, ?_⟩
    rintro (⟨h1, -⟩ | ⟨_, h2, h3⟩)
    · omega
    · exact ⟨by omega, by omega, h3⟩
  · rw [h, Nat.sub_self, List.getD_cons_zero]
    refine ⟨fun ⟨_, _, h3⟩ => .inl ⟨rfl, h3⟩, ?_⟩
    rintro (⟨-, h3⟩ | ⟨h1, -⟩)
    · exact ⟨le_refl _, by omega, h3⟩
    · omega
  · refine ⟨fun ⟨h1, _⟩ => by omega, ?_⟩
    rintro (⟨h1, -⟩ | ⟨h1, -⟩) <;> omega

/-- A sprite flips the cells it covers and no other. -/
theorem pixel_drawSprite (g : Drawing) (x0 b : Nat) (rows : List Byte) (x : Fin 64) (y : Fin 32) :
    pixel (drawSprite g x0 b rows).display x y = (pixel g.display x y ^^ decide (spriteCovers x0 b rows x y)) := by
  induction rows generalizing g b with
  | nil =>
    rw [decide_eq_false (fun h => by simp only [spriteCovers, List.length_nil] at h; omega), Bool.xor_false]
    rfl
  | cons row rows ih =>
    rw [drawSprite, ih, pixel_drawRow, Bool.xor_assoc]
    congr 1
    have e : decide (spriteCovers x0 b (row :: rows) x y) =
        (decide (b = y.val ∧ x0 ≤ x.val ∧ x.val < x0 + 8 ∧ spriteBit row (x.val - x0) = true) ||
          decide (spriteCovers x0 (b + 1) rows x y)) := by
      rw [← Bool.decide_or]; exact decide_eq_decide.2 (spriteCovers_cons ..)
    rw [e]
    by_cases h : b = y.val
    · have : ¬spriteCovers x0 (b + 1) rows x y := fun e => by have := e.1; omega
      rw [decide_eq_false this, Bool.xor_false, Bool.or_false]
    · rw [decide_eq_false (fun h' => h h'.1), Bool.false_xor, Bool.false_or]

/-- A sprite collides when it covers a cell that was on before it was drawn. -/
theorem collision_drawSprite (g : Drawing) (x0 b : Nat) (rows : List Byte) :
    (drawSprite g x0 b rows).collision = true ↔
      g.collision = true ∨ ∃ x y, spriteCovers x0 b rows x y ∧ pixel g.display x y = true := by
  induction rows generalizing g b with
  | nil =>
    refine ⟨.inl, ?_⟩
    rintro (h | ⟨x, y, h, -⟩)
    · exact h
    · simp only [spriteCovers, List.length_nil] at h; omega
  | cons row rows ih =>
    rw [drawSprite, ih, collision_drawRow, or_assoc]
    have hlow : ∀ x y, spriteCovers x0 (b + 1) rows x y →
        pixel (drawRow g x0 b row).display x y = pixel g.display x y := fun x y h => by
      rw [pixel_drawRow, decide_eq_false (fun e => by have := e.1; have := h.1; omega), Bool.xor_false]
    refine or_congr_right ⟨?_, ?_⟩
    · rintro (⟨x, y, h, hp⟩ | ⟨x, y, h, hp⟩)
      · exact ⟨x, y, (spriteCovers_cons ..).2 (.inl h), hp⟩
      · exact ⟨x, y, (spriteCovers_cons ..).2 (.inr h), (hlow x y h).symm.trans hp⟩
    · rintro ⟨x, y, h, hp⟩
      rcases (spriteCovers_cons ..).1 h with h | h
      · exact .inl ⟨x, y, h, hp⟩
      · exact .inr ⟨x, y, h, (hlow x y h).trans hp⟩

end Machine

end Sys2Proof
end

