-- ==== Sys2Proof/Laws/Memory.lean ====
section
/-! SUPPORT. The laws of memory: a read after a write, and that every operation keeps the canonical form (log 5). -/

namespace Sys2Proof

namespace Machine

/-! ### One cell -/

theorem consCell_cases (a : Nat) (b : Byte) (m : Memory) :
    (b = unlistedByte a ∧ consCell a b m = m) ∨ (b ≠ unlistedByte a ∧ consCell a b m = (a, b) :: m) := by
  unfold consCell; split <;> simp_all

/-- An address that no cell lists reads as its reset content. -/
theorem readByte_unlisted {m : Memory} {a : Nat} (h : ∀ c ∈ m, c.1 ≠ a) : readByte m a = unlistedByte a := by
  induction m with
  | nil => rfl
  | cons c m ih =>
    rw [readByte, if_neg (h c (by simp))]
    exact ih fun c' hc' => h c' (by simp [hc'])

theorem readByte_consCell_ne {m : Memory} {a a' : Nat} (b : Byte) (h : a' ≠ a) :
    readByte (consCell a b m) a' = readByte m a' := by
  rcases consCell_cases a b m with ⟨-, e⟩ | ⟨-, e⟩ <;> rw [e]
  exact if_neg (Ne.symm h)

theorem readByte_consCell_self {m : Memory} {a : Nat} (b : Byte) (h : ∀ c ∈ m, c.1 ≠ a) :
    readByte (consCell a b m) a = b := by
  rcases consCell_cases a b m with ⟨hb, e⟩ | ⟨-, e⟩ <;> rw [e]
  · rw [readByte_unlisted h, hb]
  · exact if_pos rfl

/-! ### Write, then read -/

/-- A write leaves every other address alone. -/
theorem readByte_writeByte_ne (m : Memory) {a a' : Nat} (b : Byte) (h : a' ≠ a) :
    readByte (writeByte m a b) a' = readByte m a' := by
  induction m with
  | nil => exact readByte_consCell_ne b h
  | cons c m ih =>
    obtain ⟨k, d⟩ := c
    unfold writeByte
    split
    · exact readByte_consCell_ne b h
    · split
      · next hk => subst hk; rw [readByte_consCell_ne b h]; exact (if_neg (Ne.symm h)).symm
      · simp only [readByte, ih]

/-- A read at the address just written gives the byte written. -/
theorem readByte_writeByte_self {m : Memory} (hm : m.wf) (a : Nat) (b : Byte) :
    readByte (writeByte m a b) a = b := by
  induction m with
  | nil => exact readByte_consCell_self b (by simp)
  | cons c m ih =>
    obtain ⟨k, d⟩ := c
    obtain ⟨hp, hd⟩ := hm
    rw [List.pairwise_cons] at hp
    unfold writeByte
    split
    · next hk =>
      refine readByte_consCell_self b fun c hc => ?_
      rcases List.mem_cons.1 hc with rfl | hc
      · exact Nat.ne_of_gt hk
      · exact Nat.ne_of_gt (Nat.lt_trans hk (hp.1 c hc))
    · split
      · next hk => subst hk; exact readByte_consCell_self b fun c hc => Nat.ne_of_gt (hp.1 c hc)
      · next hk =>
        rw [readByte, if_neg (Ne.symm hk)]
        exact ih ⟨hp.2, fun c hc => hd c (by simp [hc])⟩

theorem readByte_writeByte {m : Memory} (hm : m.wf) (a a' : Nat) (b : Byte) :
    readByte (writeByte m a b) a' = if a' = a then b else readByte m a' := by
  split
  · next h => rw [h]; exact readByte_writeByte_self hm a b
  · next h => exact readByte_writeByte_ne m b h

/-! ### The canonical form -/

theorem wf_nil : Memory.wf [] := by simp [Memory.wf]

theorem wf_tail {c : Host.Cell} {m : Memory} (h : Memory.wf (c :: m)) : Memory.wf m :=
  ⟨(List.pairwise_cons.1 h.1).2, fun d hd => h.2 d (by simp [hd])⟩

theorem wf_consCell {m : Memory} {a : Nat} (b : Byte) (hm : m.wf) (ha : a ≤ Config.maxAddr) (h : ∀ c ∈ m, a < c.1) :
    Memory.wf (consCell a b m) := by
  rcases consCell_cases a b m with ⟨-, e⟩ | ⟨hb, e⟩ <;> rw [e]
  · exact hm
  · refine ⟨List.pairwise_cons.2 ⟨h, hm.1⟩, fun c hc => ?_⟩
    rcases List.mem_cons.1 hc with rfl | hc
    · exact ⟨ha, hb⟩
    · exact hm.2 c hc

/-- A write lists no address that was not listed, but the one written. -/
theorem mem_writeByte {m : Memory} {a : Nat} {b : Byte} {c : Host.Cell} (h : c ∈ writeByte m a b) : c.1 = a ∨ c ∈ m := by
  induction m with
  | nil =>
    rcases consCell_cases a b [] with ⟨-, e⟩ | ⟨-, e⟩ <;> rw [writeByte, e] at h
    · exact .inr h
    · simp_all
  | cons d m ih =>
    obtain ⟨k, d⟩ := d
    unfold writeByte at h
    split at h
    · rcases consCell_cases a b ((k, d) :: m) with ⟨-, e⟩ | ⟨-, e⟩ <;> rw [e] at h
      · exact .inr h
      · rcases List.mem_cons.1 h with rfl | h
        · exact .inl rfl
        · exact .inr h
    · split at h
      · rcases consCell_cases a b m with ⟨-, e⟩ | ⟨-, e⟩ <;> rw [e] at h
        · exact .inr (by simp [h])
        · rcases List.mem_cons.1 h with rfl | h
          · exact .inl rfl
          · exact .inr (by simp [h])
      · rcases List.mem_cons.1 h with rfl | h
        · exact .inr (by simp)
        · rcases ih h with h | h
          · exact .inl h
          · exact .inr (by simp [h])

/-- A write keeps the canonical form. -/
theorem wf_writeByte {m : Memory} (hm : m.wf) {a : Nat} (ha : a ≤ Config.maxAddr) (b : Byte) : (writeByte m a b).wf := by
  induction m with
  | nil => exact wf_consCell b hm ha (by simp)
  | cons c m ih =>
    obtain ⟨k, d⟩ := c
    have hk := (List.pairwise_cons.1 hm.1).1
    unfold writeByte
    split
    · next h =>
      refine wf_consCell b hm ha fun c hc => ?_
      rcases List.mem_cons.1 hc with rfl | hc
      · exact h
      · exact Nat.lt_trans h (hk c hc)
    · split
      · next _ h => subst h; exact wf_consCell b (wf_tail hm) ha hk
      · next h1 h2 =>
        refine ⟨List.pairwise_cons.2 ⟨fun c hc => ?_, (ih (wf_tail hm)).1⟩, fun c hc => ?_⟩
        · rcases mem_writeByte hc with h | h
          · rw [h]; omega
          · exact hk c h
        · rcases List.mem_cons.1 hc with rfl | hc
          · exact hm.2 _ (by simp)
          · exact (ih (wf_tail hm)).2 c hc

/-! ### Runs of bytes -/

/-- A run of stores keeps the canonical form. -/
theorem wf_writeBytes {m : Memory} (hm : m.wf) {base : Nat} {bs : List Byte} (h : base + bs.length ≤ Config.memBytes) :
    (writeBytes m base bs).wf := by
  induction bs generalizing m base with
  | nil => exact hm
  | cons b bs ih =>
    simp only [List.length_cons, Config.memBytes] at h
    exact ih (wf_writeByte hm (by simp only [Config.maxAddr]; omega) b) (by simp only [Config.memBytes]; omega)

/-- A run of stores leaves every address outside it alone. -/
theorem readByte_writeBytes_outside (m : Memory) {base a : Nat} {bs : List Byte} (h : a < base ∨ base + bs.length ≤ a) :
    readByte (writeBytes m base bs) a = readByte m a := by
  induction bs generalizing m base with
  | nil => rfl
  | cons b bs ih =>
    simp only [List.length_cons] at h
    rw [writeBytes, ih _ (by omega), readByte_writeByte_ne m b (by omega)]

/-- After a run of stores, byte `k` of the run stands at `base + k`. -/
theorem readByte_writeBytes_inside {m : Memory} (hm : m.wf) {base : Nat} {bs : List Byte}
    (hr : base + bs.length ≤ Config.memBytes) {k : Nat} (hk : k < bs.length) :
    readByte (writeBytes m base bs) (base + k) = bs[k] := by
  induction bs generalizing m base k with
  | nil => simp at hk
  | cons b bs ih =>
    simp only [List.length_cons, Config.memBytes] at hr
    have hw := wf_writeByte hm (a := base) (by simp only [Config.maxAddr]; omega) b
    cases k with
    | zero =>
      rw [writeBytes, readByte_writeBytes_outside _ (by omega)]
      exact readByte_writeByte_self hm base b
    | succ k =>
      have := ih hw (base := base + 1) (by simp only [Config.memBytes]; omega) (k := k) (by simpa using hk)
      rw [writeBytes, show base + (k + 1) = base + 1 + k by omega, this]
      rfl

@[simp] theorem length_readBytes (m : Memory) (base n : Nat) : (readBytes m base n).length = n := by
  simp [readBytes]

@[simp] theorem getElem_readBytes (m : Memory) (base n k : Nat) (h : k < (readBytes m base n).length) :
    (readBytes m base n)[k] = readByte m (base + k) := by
  simp [readBytes]

/-! ### The range check (20_memory.md R53) -/

theorem outOfRange_none {base : Word} {n : Nat} (h : n = 0 ∨ base.toNat + n - 1 ≤ Config.maxAddr) :
    outOfRange base n = none := by
  unfold outOfRange; rw [if_neg]; omega

theorem outOfRange_some {base : Word} {n : Nat} (h0 : 0 < n) (h : Config.maxAddr < base.toNat + n - 1) :
    outOfRange base n = some (if Config.maxAddr < base.toNat then base else 0x1000) := by
  unfold outOfRange; rw [if_pos ⟨h0, h⟩]

theorem outOfRange_eq_none_iff {base : Word} {n : Nat} :
    outOfRange base n = none ↔ n = 0 ∨ base.toNat + n - 1 ≤ Config.maxAddr := by
  refine ⟨fun h => ?_, outOfRange_none⟩
  by_contra hc
  rw [outOfRange_some (by omega) (by omega)] at h
  cases h

/-- Everything a checked read can do. -/
theorem checkedRead_cases (m : Memory) (base : Word) (n : Nat) :
    ((n = 0 ∨ base.toNat + n - 1 ≤ Config.maxAddr) ∧ checkedRead m base n = .ok (readBytes m base.toNat n)) ∨
    (0 < n ∧ Config.maxAddr < base.toNat + n - 1 ∧ checkedRead m base n =
      .error (.addressOutOfRange (if Config.maxAddr < base.toNat then base else 0x1000))) := by
  unfold checkedRead
  by_cases h : n = 0 ∨ base.toNat + n - 1 ≤ Config.maxAddr
  · exact .inl ⟨h, by rw [outOfRange_none h]⟩
  · exact .inr ⟨by omega, by omega, by rw [outOfRange_some (by omega) (by omega)]⟩

/-- Everything a checked store can do. -/
theorem checkedStore_cases (m : Memory) (base : Word) (bs : List Byte) :
    ((bs.length = 0 ∨ base.toNat + bs.length - 1 ≤ Config.maxAddr) ∧
      checkedStore m base bs = .ok (writeBytes m base.toNat bs)) ∨
    (0 < bs.length ∧ Config.maxAddr < base.toNat + bs.length - 1 ∧ checkedStore m base bs =
      .error (.addressOutOfRange (if Config.maxAddr < base.toNat then base else 0x1000))) := by
  unfold checkedStore
  by_cases h : bs.length = 0 ∨ base.toNat + bs.length - 1 ≤ Config.maxAddr
  · exact .inl ⟨h, by rw [outOfRange_none h]⟩
  · exact .inr ⟨by omega, by omega, by rw [outOfRange_some (by omega) (by omega)]⟩

/-- A checked store keeps the canonical form. -/
theorem wf_checkedStore {m m' : Memory} {base : Word} {bs : List Byte} (hm : m.wf)
    (h : checkedStore m base bs = .ok m') : m'.wf := by
  rcases checkedStore_cases m base bs with ⟨hr, e⟩ | ⟨-, -, e⟩ <;> rw [e] at h
  · cases h
    cases bs with
    | nil => exact hm
    | cons b bs => exact wf_writeBytes hm (by simp only [Config.maxAddr, Config.memBytes, List.length_cons] at *; omega)
  · cases h

/-! ### The memory `Construct` starts from (70_reset_and_hazards.md R280) -/

theorem wf_zeroMemory : zeroMemory.wf := wf_writeBytes wf_nil (by decide)

theorem readByte_zeroMemory (a : Nat) : readByte zeroMemory a = 0 := by
  by_cases h : Config.fontBase.toNat ≤ a ∧ a < Config.fontBase.toNat + Config.fontBytes
  · obtain ⟨k, rfl⟩ := Nat.exists_eq_add_of_le h.1
    unfold zeroMemory
    rw [readByte_writeBytes_inside wf_nil (by decide) (by simpa using h.2)]
    simp
  · unfold zeroMemory
    rw [readByte_writeBytes_outside _ (by simp only [List.length_replicate]; omega)]
    simp only [readByte, unlistedByte, if_neg h]

end Machine

end Sys2Proof
end

