-- ==== Sys2Proof/Laws/State.lean ====
section
/-! SUPPORT. The small lemmas of the state's updates: one per field and update, so that no proof unfolds a record update. -/

namespace Sys2Proof

namespace Machine

/-! ### `setReg` -/

@[simp] theorem State.setReg_mem (s : State) (x : Reg) (b : Byte) : (s.setReg x b).mem = s.mem := rfl
@[simp] theorem State.setReg_display (s : State) (x : Reg) (b : Byte) : (s.setReg x b).display = s.display := rfl
@[simp] theorem State.setReg_pc (s : State) (x : Reg) (b : Byte) : (s.setReg x b).pc = s.pc := rfl
@[simp] theorem State.setReg_i (s : State) (x : Reg) (b : Byte) : (s.setReg x b).i = s.i := rfl
@[simp] theorem State.setReg_stack (s : State) (x : Reg) (b : Byte) : (s.setReg x b).stack = s.stack := rfl
@[simp] theorem State.setReg_sp (s : State) (x : Reg) (b : Byte) : (s.setReg x b).sp = s.sp := rfl
@[simp] theorem State.setReg_dt (s : State) (x : Reg) (b : Byte) : (s.setReg x b).dt = s.dt := rfl
@[simp] theorem State.setReg_st (s : State) (x : Reg) (b : Byte) : (s.setReg x b).st = s.st := rfl
@[simp] theorem State.setReg_v (s : State) (x : Reg) (b : Byte) : (s.setReg x b).v = s.v.set x b := rfl
@[simp] theorem State.setReg_keys (s : State) (x : Reg) (b : Byte) : (s.setReg x b).keys = s.keys := rfl
@[simp] theorem State.setReg_fontBase (s : State) (x : Reg) (b : Byte) : (s.setReg x b).fontBase = s.fontBase := rfl
@[simp] theorem State.setReg_inputs (s : State) (x : Reg) (b : Byte) : (s.setReg x b).inputs = s.inputs := rfl
@[simp] theorem State.setReg_rand8 (s : State) (x : Reg) (b : Byte) : (s.setReg x b).rand8 = s.rand8 := rfl
@[simp] theorem State.setReg_draws (s : State) (x : Reg) (b : Byte) : (s.setReg x b).draws = s.draws := rfl
@[simp] theorem State.setReg_result (s : State) (x : Reg) (b : Byte) : (s.setReg x b).result = s.result := rfl

/-! ### `setRegAndFlag` -/

@[simp] theorem State.setRegAndFlag_mem (s : State) (x : Reg) (b f : Byte) : (s.setRegAndFlag x b f).mem = s.mem := rfl
@[simp] theorem State.setRegAndFlag_display (s : State) (x : Reg) (b f : Byte) : (s.setRegAndFlag x b f).display = s.display := rfl
@[simp] theorem State.setRegAndFlag_pc (s : State) (x : Reg) (b f : Byte) : (s.setRegAndFlag x b f).pc = s.pc := rfl
@[simp] theorem State.setRegAndFlag_i (s : State) (x : Reg) (b f : Byte) : (s.setRegAndFlag x b f).i = s.i := rfl
@[simp] theorem State.setRegAndFlag_stack (s : State) (x : Reg) (b f : Byte) : (s.setRegAndFlag x b f).stack = s.stack := rfl
@[simp] theorem State.setRegAndFlag_sp (s : State) (x : Reg) (b f : Byte) : (s.setRegAndFlag x b f).sp = s.sp := rfl
@[simp] theorem State.setRegAndFlag_dt (s : State) (x : Reg) (b f : Byte) : (s.setRegAndFlag x b f).dt = s.dt := rfl
@[simp] theorem State.setRegAndFlag_st (s : State) (x : Reg) (b f : Byte) : (s.setRegAndFlag x b f).st = s.st := rfl
@[simp] theorem State.setRegAndFlag_v (s : State) (x : Reg) (b f : Byte) : (s.setRegAndFlag x b f).v = (s.v.set x b).set vfIndex f := rfl
@[simp] theorem State.setRegAndFlag_keys (s : State) (x : Reg) (b f : Byte) : (s.setRegAndFlag x b f).keys = s.keys := rfl
@[simp] theorem State.setRegAndFlag_fontBase (s : State) (x : Reg) (b f : Byte) : (s.setRegAndFlag x b f).fontBase = s.fontBase := rfl
@[simp] theorem State.setRegAndFlag_inputs (s : State) (x : Reg) (b f : Byte) : (s.setRegAndFlag x b f).inputs = s.inputs := rfl
@[simp] theorem State.setRegAndFlag_rand8 (s : State) (x : Reg) (b f : Byte) : (s.setRegAndFlag x b f).rand8 = s.rand8 := rfl
@[simp] theorem State.setRegAndFlag_draws (s : State) (x : Reg) (b f : Byte) : (s.setRegAndFlag x b f).draws = s.draws := rfl
@[simp] theorem State.setRegAndFlag_result (s : State) (x : Reg) (b f : Byte) : (s.setRegAndFlag x b f).result = s.result := rfl

/-! ### `jump` -/

@[simp] theorem State.jump_mem (s : State) (a : Word) : (s.jump a).mem = s.mem := rfl
@[simp] theorem State.jump_display (s : State) (a : Word) : (s.jump a).display = s.display := rfl
@[simp] theorem State.jump_pc (s : State) (a : Word) : (s.jump a).pc = a := rfl
@[simp] theorem State.jump_i (s : State) (a : Word) : (s.jump a).i = s.i := rfl
@[simp] theorem State.jump_stack (s : State) (a : Word) : (s.jump a).stack = s.stack := rfl
@[simp] theorem State.jump_sp (s : State) (a : Word) : (s.jump a).sp = s.sp := rfl
@[simp] theorem State.jump_dt (s : State) (a : Word) : (s.jump a).dt = s.dt := rfl
@[simp] theorem State.jump_st (s : State) (a : Word) : (s.jump a).st = s.st := rfl
@[simp] theorem State.jump_v (s : State) (a : Word) : (s.jump a).v = s.v := rfl
@[simp] theorem State.jump_keys (s : State) (a : Word) : (s.jump a).keys = s.keys := rfl
@[simp] theorem State.jump_fontBase (s : State) (a : Word) : (s.jump a).fontBase = s.fontBase := rfl
@[simp] theorem State.jump_inputs (s : State) (a : Word) : (s.jump a).inputs = s.inputs := rfl
@[simp] theorem State.jump_rand8 (s : State) (a : Word) : (s.jump a).rand8 = s.rand8 := rfl
@[simp] theorem State.jump_draws (s : State) (a : Word) : (s.jump a).draws = s.draws := rfl
@[simp] theorem State.jump_result (s : State) (a : Word) : (s.jump a).result = s.result := rfl

/-! ### `skipIf` -/

@[simp] theorem State.skipIf_mem (s : State) (c : Bool) : (s.skipIf c).mem = s.mem := by cases c <;> rfl
@[simp] theorem State.skipIf_display (s : State) (c : Bool) : (s.skipIf c).display = s.display := by cases c <;> rfl
@[simp] theorem State.skipIf_pc (s : State) (c : Bool) : (s.skipIf c).pc = if c then s.pc + 2 else s.pc := by cases c <;> rfl
@[simp] theorem State.skipIf_i (s : State) (c : Bool) : (s.skipIf c).i = s.i := by cases c <;> rfl
@[simp] theorem State.skipIf_stack (s : State) (c : Bool) : (s.skipIf c).stack = s.stack := by cases c <;> rfl
@[simp] theorem State.skipIf_sp (s : State) (c : Bool) : (s.skipIf c).sp = s.sp := by cases c <;> rfl
@[simp] theorem State.skipIf_dt (s : State) (c : Bool) : (s.skipIf c).dt = s.dt := by cases c <;> rfl
@[simp] theorem State.skipIf_st (s : State) (c : Bool) : (s.skipIf c).st = s.st := by cases c <;> rfl
@[simp] theorem State.skipIf_v (s : State) (c : Bool) : (s.skipIf c).v = s.v := by cases c <;> rfl
@[simp] theorem State.skipIf_keys (s : State) (c : Bool) : (s.skipIf c).keys = s.keys := by cases c <;> rfl
@[simp] theorem State.skipIf_fontBase (s : State) (c : Bool) : (s.skipIf c).fontBase = s.fontBase := by cases c <;> rfl
@[simp] theorem State.skipIf_inputs (s : State) (c : Bool) : (s.skipIf c).inputs = s.inputs := by cases c <;> rfl
@[simp] theorem State.skipIf_rand8 (s : State) (c : Bool) : (s.skipIf c).rand8 = s.rand8 := by cases c <;> rfl
@[simp] theorem State.skipIf_draws (s : State) (c : Bool) : (s.skipIf c).draws = s.draws := by cases c <;> rfl
@[simp] theorem State.skipIf_result (s : State) (c : Bool) : (s.skipIf c).result = s.result := by cases c <;> rfl

/-! ### `drawn` -/

@[simp] theorem State.drawn_mem (s : State) : (s.drawn).mem = s.mem := rfl
@[simp] theorem State.drawn_display (s : State) : (s.drawn).display = s.display := rfl
@[simp] theorem State.drawn_pc (s : State) : (s.drawn).pc = s.pc := rfl
@[simp] theorem State.drawn_i (s : State) : (s.drawn).i = s.i := rfl
@[simp] theorem State.drawn_stack (s : State) : (s.drawn).stack = s.stack := rfl
@[simp] theorem State.drawn_sp (s : State) : (s.drawn).sp = s.sp := rfl
@[simp] theorem State.drawn_dt (s : State) : (s.drawn).dt = s.dt := rfl
@[simp] theorem State.drawn_st (s : State) : (s.drawn).st = s.st := rfl
@[simp] theorem State.drawn_v (s : State) : (s.drawn).v = s.v := rfl
@[simp] theorem State.drawn_keys (s : State) : (s.drawn).keys = s.keys := rfl
@[simp] theorem State.drawn_fontBase (s : State) : (s.drawn).fontBase = s.fontBase := rfl
@[simp] theorem State.drawn_inputs (s : State) : (s.drawn).inputs = s.inputs := rfl
@[simp] theorem State.drawn_rand8 (s : State) : (s.drawn).rand8 = s.rand8 := rfl
@[simp] theorem State.drawn_draws (s : State) : (s.drawn).draws = if s.rand8.isSome then s.draws else s.draws + 1 := rfl
@[simp] theorem State.drawn_result (s : State) : (s.drawn).result = s.result := rfl

/-! ### `setRegsFrom` -/

@[simp] theorem State.setRegsFrom_mem (s : State) (bs : List Byte) : (s.setRegsFrom bs).mem = s.mem := rfl
@[simp] theorem State.setRegsFrom_display (s : State) (bs : List Byte) : (s.setRegsFrom bs).display = s.display := rfl
@[simp] theorem State.setRegsFrom_pc (s : State) (bs : List Byte) : (s.setRegsFrom bs).pc = s.pc := rfl
@[simp] theorem State.setRegsFrom_i (s : State) (bs : List Byte) : (s.setRegsFrom bs).i = s.i := rfl
@[simp] theorem State.setRegsFrom_stack (s : State) (bs : List Byte) : (s.setRegsFrom bs).stack = s.stack := rfl
@[simp] theorem State.setRegsFrom_sp (s : State) (bs : List Byte) : (s.setRegsFrom bs).sp = s.sp := rfl
@[simp] theorem State.setRegsFrom_dt (s : State) (bs : List Byte) : (s.setRegsFrom bs).dt = s.dt := rfl
@[simp] theorem State.setRegsFrom_st (s : State) (bs : List Byte) : (s.setRegsFrom bs).st = s.st := rfl
@[simp] theorem State.setRegsFrom_v (s : State) (bs : List Byte) : (s.setRegsFrom bs).v = Vector.ofFn fun k : Fin 16 => bs.getD k.val s.v[k] := rfl
@[simp] theorem State.setRegsFrom_keys (s : State) (bs : List Byte) : (s.setRegsFrom bs).keys = s.keys := rfl
@[simp] theorem State.setRegsFrom_fontBase (s : State) (bs : List Byte) : (s.setRegsFrom bs).fontBase = s.fontBase := rfl
@[simp] theorem State.setRegsFrom_inputs (s : State) (bs : List Byte) : (s.setRegsFrom bs).inputs = s.inputs := rfl
@[simp] theorem State.setRegsFrom_rand8 (s : State) (bs : List Byte) : (s.setRegsFrom bs).rand8 = s.rand8 := rfl
@[simp] theorem State.setRegsFrom_draws (s : State) (bs : List Byte) : (s.setRegsFrom bs).draws = s.draws := rfl
@[simp] theorem State.setRegsFrom_result (s : State) (bs : List Byte) : (s.setRegsFrom bs).result = s.result := rfl

/-! ### `advance` -/

@[simp] theorem State.advance_mem (s : State) : (s.advance).mem = s.mem := rfl
@[simp] theorem State.advance_display (s : State) : (s.advance).display = s.display := rfl
@[simp] theorem State.advance_pc (s : State) : (s.advance).pc = s.pc + 2 := rfl
@[simp] theorem State.advance_i (s : State) : (s.advance).i = s.i := rfl
@[simp] theorem State.advance_stack (s : State) : (s.advance).stack = s.stack := rfl
@[simp] theorem State.advance_sp (s : State) : (s.advance).sp = s.sp := rfl
@[simp] theorem State.advance_dt (s : State) : (s.advance).dt = s.dt := rfl
@[simp] theorem State.advance_st (s : State) : (s.advance).st = s.st := rfl
@[simp] theorem State.advance_v (s : State) : (s.advance).v = s.v := rfl
@[simp] theorem State.advance_keys (s : State) : (s.advance).keys = s.keys := rfl
@[simp] theorem State.advance_fontBase (s : State) : (s.advance).fontBase = s.fontBase := rfl
@[simp] theorem State.advance_inputs (s : State) : (s.advance).inputs = s.inputs := rfl
@[simp] theorem State.advance_rand8 (s : State) : (s.advance).rand8 = s.rand8 := rfl
@[simp] theorem State.advance_draws (s : State) : (s.advance).draws = s.draws := rfl
@[simp] theorem State.advance_result (s : State) : (s.advance).result = .ok := rfl

/-! ### Registers -/

theorem State.reg_setReg (s : State) (x y : Reg) (b : Byte) : (s.setReg x b).reg y = if x = y then b else s.reg y := by
  simp [State.reg, State.setReg, Vector.getElem_set, Fin.ext_iff]

@[simp] theorem State.reg_setReg_self (s : State) (x : Reg) (b : Byte) : (s.setReg x b).reg x = b := by
  simp [State.reg_setReg]

/-- VF after a flag-setting instruction holds the flag, whatever the destination (42_arithmetic_logic.md R151). -/
@[simp] theorem State.reg_setRegAndFlag_vf (s : State) (x : Reg) (b f : Byte) : (s.setRegAndFlag x b f).reg vfIndex = f := by
  simp [State.setRegAndFlag]

theorem State.reg_setRegAndFlag (s : State) (x y : Reg) (b f : Byte) :
    (s.setRegAndFlag x b f).reg y = if y = vfIndex then f else if x = y then b else s.reg y := by
  simp only [State.setRegAndFlag, State.reg_setReg, eq_comm]

theorem State.reg_setRegsFrom (s : State) (bs : List Byte) (k : Reg) :
    (s.setRegsFrom bs).reg k = bs.getD k.val (s.reg k) := by
  simp [State.reg, State.setRegsFrom]

end Machine

end Sys2Proof
end

