-- ==== Sys2Proof/Laws/Ops.lean ====
section
/-! SUPPORT. The shared operations, each with everything it can do. -/

namespace Sys2Proof

namespace Machine

/-! ### The stack controller (10_state.md R32) -/

/-- Everything a push can do. -/
theorem State.push_cases (s : State) (a : Word) :
    (∃ h : s.sp.val < 16, s.push a = some { s with stack := s.stack.set s.sp a, sp := ⟨s.sp.val + 1, by omega⟩ }) ∨
    (s.sp.val = 16 ∧ s.push a = none) := by
  by_cases h : s.sp.val < 16
  · exact .inl ⟨h, by simp [State.push, h]⟩
  · exact .inr ⟨by omega, by simp [State.push, h]⟩

/-- Everything a pop can do. -/
theorem State.pop_cases (s : State) :
    (∃ h : 0 < s.sp.val, s.pop = some (s.stack[s.sp.val - 1], { s with sp := ⟨s.sp.val - 1, by omega⟩ })) ∨
    (s.sp.val = 0 ∧ s.pop = none) := by
  by_cases h : 0 < s.sp.val
  · exact .inl ⟨h, by simp [State.pop, h]⟩
  · exact .inr ⟨by omega, by simp [State.pop, h]⟩

/-! ### Errors (60_exceptions.md R251) -/

/-- An error changes the result alone. -/
theorem State.raise_eq (s : State) (e : ErrorKind) : s.raise e = .next { s with result := .error e } := rfl

/-! ### Keys (45_timer_keypad.md) -/

theorem keyNumber_of_lt {vx : Byte} (h : vx.toNat < 16) :
    ∀ s : State, keyNumber vx = some ⟨vx.toNat, h⟩ ∧ s.key ⟨vx.toNat, h⟩ = s.keys[vx.toNat] := by
  intro s
  simp [keyNumber, h, State.key]

theorem keyNumber_of_ge {vx : Byte} (h : 16 ≤ vx.toNat) : keyNumber vx = none := by
  simp [keyNumber, Nat.not_lt.2 h]

/-- No key is pressed. -/
theorem State.lowestKey_none {s : State} : s.lowestKey = none ↔ ∀ k : Fin 16, s.key k = false := by
  simp [State.lowestKey]

/-- The key found is pressed, and no lower one is (45_timer_keypad.md R236). -/
theorem State.lowestKey_some {s : State} {k : Fin 16} (h : s.lowestKey = some k) :
    s.key k = true ∧ ∀ j : Fin 16, j < k → s.key j = false := by
  rw [State.lowestKey, List.find?_eq_some_iff_append] at h
  obtain ⟨hk, as, bs, e, hb⟩ := h
  refine ⟨hk, fun j hj => ?_⟩
  have hs : (as ++ k :: bs).Pairwise (· < ·) := e ▸ List.pairwise_lt_finRange 16
  have hm : j ∈ as ++ k :: bs := e ▸ List.mem_finRange j
  rcases List.mem_append.1 hm with hm | hm
  · simpa using hb j hm
  · rcases List.mem_cons.1 hm with rfl | hm
    · exact absurd hj (lt_irrefl _)
    · have := (List.pairwise_cons.1 (List.pairwise_append.1 hs).2.1).1 j hm
      exact absurd (hj.trans this) (lt_irrefl _)

/-! ### Stores at `I` (44_index_memory.md) -/

/-- Everything a store at `I` can do. -/
theorem State.storeAtI_cases (s : State) (bs : List Byte) :
    ((bs.length = 0 ∨ s.i.toNat + bs.length - 1 ≤ Config.maxAddr) ∧
      s.storeAtI bs = .next { s with mem := writeBytes s.mem s.i.toNat bs }) ∨
    (0 < bs.length ∧ Config.maxAddr < s.i.toNat + bs.length - 1 ∧ s.storeAtI bs =
      .next { s with result := .error (.addressOutOfRange (if Config.maxAddr < s.i.toNat then s.i else 0x1000)) }) := by
  rcases checkedStore_cases s.mem s.i bs with ⟨h, e⟩ | ⟨h0, h, e⟩
  · exact .inl ⟨h, by rw [State.storeAtI, e]⟩
  · exact .inr ⟨h0, h, by rw [State.storeAtI, e]; rfl⟩

@[simp] theorem length_bcdDigits (b : Byte) : (bcdDigits b).length = 3 := rfl

@[simp] theorem State.length_regsUpTo (s : State) (x : Reg) : (s.regsUpTo x).length = x.val + 1 := by
  simp [State.regsUpTo]

@[simp] theorem State.getElem_regsUpTo (s : State) (x : Reg) (k : Nat) (h : k < (s.regsUpTo x).length) :
    (s.regsUpTo x)[k] = s.reg ⟨k, by simp at h; omega⟩ := by
  simp [State.regsUpTo, State.reg]

/-! ### The cycle (40_cycle.md) -/

/-- Everything a fetch can do (40_cycle.md R101, R102). -/
theorem State.fetch_cases (s : State) :
    (s.pc.toNat + 1 ≤ Config.maxAddr ∧
      s.fetch = .ok (wordOfBytes (readByte s.mem s.pc.toNat) (readByte s.mem (s.pc.toNat + 1)))) ∨
    (Config.maxAddr < s.pc.toNat + 1 ∧
      s.fetch = .error (.addressOutOfRange (if Config.maxAddr < s.pc.toNat then s.pc else 0x1000))) := by
  unfold State.fetch
  by_cases h : s.pc.toNat + 1 ≤ Config.maxAddr
  · exact .inl ⟨h, by rw [outOfRange_none (by omega)]⟩
  · exact .inr ⟨by omega, by rw [outOfRange_some (by omega) (by omega)]⟩

theorem step_of_inputs_nil {s : State} (h : s.inputs = []) : step s = runCycle none s := by
  simp [step, runNext, h]

theorem step_of_inputs_cons {s : State} {op : HostOp} {rest : List HostOp} (h : s.inputs = op :: rest) :
    step s = runHostOp op { s with inputs := rest } := by
  simp [step, runNext, h]

/-- A `Cycle` whose fetch and decode succeed is the instruction's rule after the advance. -/
theorem runCycle_instr {s : State} {r : Option Byte} {w : Word} {i : Instr} (hf : s.fetch = .ok w)
    (hd : decode w = some i) : runCycle r s = exec i { s with rand8 := r, pc := s.pc + 2, result := .ok } := by
  simp only [runCycle, hf, hd]; rfl

/-- A `Cycle` whose word decodes to `UNKNOWN`. -/
theorem runCycle_unknown {s : State} {r : Option Byte} {w : Word} (hf : s.fetch = .ok w) (hd : decode w = none) :
    runCycle r s = .next { s with rand8 := r, pc := s.pc + 2, result := .error (.unknownOpcode w) } := by
  simp only [runCycle, hf, hd]; rfl

/-- A `Cycle` whose fetch fails. -/
theorem runCycle_fetchError {s : State} {r : Option Byte} {e : ErrorKind} (hf : s.fetch = .error e) :
    runCycle r s = .next { s with rand8 := r, result := .error e } := by
  simp only [runCycle, hf]; rfl

/-! ### A step that is a `Cycle` -/

@[simp] theorem State.cycleStart_pc (s : State) : s.cycleStart.pc = s.pc := by unfold State.cycleStart; split <;> rfl

@[simp] theorem State.cycleStart_mem (s : State) : s.cycleStart.mem = s.mem := by unfold State.cycleStart; split <;> rfl

@[simp] theorem State.cycleStart_fetch (s : State) : s.cycleStart.fetch = s.fetch := by
  unfold State.cycleStart; split <;> rfl

theorem step_of_cycleNext {s : State} (h : s.cycleNext = true) : step s = runCycle s.cycleStart.rand8 s.cycleStart := by
  unfold State.cycleNext at h
  split at h
  · next e =>
    have hs : s.cycleStart = { s with rand8 := none } := by unfold State.cycleStart; rw [e]
    rw [step_of_inputs_nil e, hs]; rfl
  · next e => rw [step_of_inputs_cons e]; simp only [State.cycleStart, e, runHostOp]; rfl
  · cases h

/-- A step whose word decodes is the instruction's rule after the advance. -/
theorem step_instr {s : State} {w : Word} {i : Instr} (hc : s.cycleNext = true) (hf : s.fetch = .ok w)
    (hd : decode w = some i) : step s = exec i { s.cycleStart with pc := s.pc + 2, result := .ok } := by
  rw [step_of_cycleNext hc, runCycle_instr (by rw [State.cycleStart_fetch]; exact hf) hd, State.cycleStart_pc]

/-- A step whose word is `UNKNOWN`. -/
theorem step_unknown {s : State} {w : Word} (hc : s.cycleNext = true) (hf : s.fetch = .ok w) (hd : decode w = none) :
    step s = .next { s.cycleStart with pc := s.pc + 2, result := .error (.unknownOpcode w) } := by
  rw [step_of_cycleNext hc, runCycle_unknown (by rw [State.cycleStart_fetch]; exact hf) hd, State.cycleStart_pc]

/-- A step whose fetch fails. -/
theorem step_fetchError {s : State} {e : ErrorKind} (hc : s.cycleNext = true) (hf : s.fetch = .error e) :
    step s = .next { s.cycleStart with result := .error e } := by
  rw [step_of_cycleNext hc, runCycle_fetchError (by rw [State.cycleStart_fetch]; exact hf)]

/-! ### Addresses as numbers -/

theorem extendAddr_eq_ofNat (nnn : Addr12) : extendAddr nnn = BitVec.ofNat 16 nnn.toNat := by
  apply BitVec.eq_of_toNat_eq; simp [extendAddr]

theorem toNat_extendAddr (nnn : Addr12) : (extendAddr nnn).toNat = nnn.toNat := by
  have := nnn.isLt
  simp [extendAddr]
  omega

/-- `NNN + v0` keeps every bit: it is at most 0x10FE (41_control_flow.md R128). -/
theorem toNat_offsetTarget (nnn : Addr12) (v0 : Byte) : (offsetTarget nnn v0).toNat = nnn.toNat + v0.toNat := by
  have := nnn.isLt
  have := v0.isLt
  simp [offsetTarget, extendAddr, extendByte]
  omega

end Machine

end Sys2Proof
end

