-- ==== Sys2Proof/Laws/PerInstr.lean ====
section
/-! SUPPORT. Per instruction: the word the encoder writes is an instance of the instruction's row in the opcode table, "a
word `w` is the instruction when `w & mask = match`" (30_encoding.md R80). -/

namespace Sys2Proof

namespace Laws

namespace RowMatch

/-- The encoded word matches the instruction's row of 30_encoding.md R80. -/
def Statement (i : Instr) : Prop := encode i &&& i.row.mask = i.row.pattern

theorem cls : Statement .cls := rfl
theorem ret : Statement .ret := rfl
theorem jp (nnn : Addr12) : Statement (.jp nnn) := wordNNN_and_classMask _ _
theorem call (nnn : Addr12) : Statement (.call nnn) := wordNNN_and_classMask _ _
theorem seVxNn (x : Reg) (nn : Byte) : Statement (.seVxNn x nn) := wordXNN_and_classMask _ _ _
theorem sneVxNn (x : Reg) (nn : Byte) : Statement (.sneVxNn x nn) := wordXNN_and_classMask _ _ _
theorem seVxVy (x : Reg) (y : Reg) : Statement (.seVxVy x y) := wordXYN_and_nibbleMask _ _ _ _
theorem ldVxNn (x : Reg) (nn : Byte) : Statement (.ldVxNn x nn) := wordXNN_and_classMask _ _ _
theorem addVxNn (x : Reg) (nn : Byte) : Statement (.addVxNn x nn) := wordXNN_and_classMask _ _ _
theorem ldVxVy (x : Reg) (y : Reg) : Statement (.ldVxVy x y) := wordXYN_and_nibbleMask _ _ _ _
theorem orVxVy (x : Reg) (y : Reg) : Statement (.orVxVy x y) := wordXYN_and_nibbleMask _ _ _ _
theorem andVxVy (x : Reg) (y : Reg) : Statement (.andVxVy x y) := wordXYN_and_nibbleMask _ _ _ _
theorem xorVxVy (x : Reg) (y : Reg) : Statement (.xorVxVy x y) := wordXYN_and_nibbleMask _ _ _ _
theorem addVxVy (x : Reg) (y : Reg) : Statement (.addVxVy x y) := wordXYN_and_nibbleMask _ _ _ _
theorem subVxVy (x : Reg) (y : Reg) : Statement (.subVxVy x y) := wordXYN_and_nibbleMask _ _ _ _
theorem shrVx (x : Reg) (y : Reg) : Statement (.shrVx x y) := wordXYN_and_nibbleMask _ _ _ _
theorem subnVxVy (x : Reg) (y : Reg) : Statement (.subnVxVy x y) := wordXYN_and_nibbleMask _ _ _ _
theorem shlVx (x : Reg) (y : Reg) : Statement (.shlVx x y) := wordXYN_and_nibbleMask _ _ _ _
theorem sneVxVy (x : Reg) (y : Reg) : Statement (.sneVxVy x y) := wordXYN_and_nibbleMask _ _ _ _
theorem ldINnn (nnn : Addr12) : Statement (.ldINnn nnn) := wordNNN_and_classMask _ _
theorem jpV0Nnn (nnn : Addr12) : Statement (.jpV0Nnn nnn) := wordNNN_and_classMask _ _
theorem rndVxNn (x : Reg) (nn : Byte) : Statement (.rndVxNn x nn) := wordXNN_and_classMask _ _ _
theorem drw (x : Reg) (y : Reg) (n : Fin 16) : Statement (.drw x y n) := wordXYN_and_classMask _ _ _ _
theorem skp (x : Reg) : Statement (.skp x) := wordXNN_and_byteMask _ _ _
theorem sknp (x : Reg) : Statement (.sknp x) := wordXNN_and_byteMask _ _ _
theorem ldVxDt (x : Reg) : Statement (.ldVxDt x) := wordXNN_and_byteMask _ _ _
theorem ldVxK (x : Reg) : Statement (.ldVxK x) := wordXNN_and_byteMask _ _ _
theorem ldDtVx (x : Reg) : Statement (.ldDtVx x) := wordXNN_and_byteMask _ _ _
theorem ldStVx (x : Reg) : Statement (.ldStVx x) := wordXNN_and_byteMask _ _ _
theorem addIVx (x : Reg) : Statement (.addIVx x) := wordXNN_and_byteMask _ _ _
theorem ldFVx (x : Reg) : Statement (.ldFVx x) := wordXNN_and_byteMask _ _ _
theorem ldBVx (x : Reg) : Statement (.ldBVx x) := wordXNN_and_byteMask _ _ _
theorem ldMemVx (x : Reg) : Statement (.ldMemVx x) := wordXNN_and_byteMask _ _ _
theorem ldVxMem (x : Reg) : Statement (.ldVxMem x) := wordXNN_and_byteMask _ _ _

end RowMatch

end Laws

end Sys2Proof
end

