-- ==== Sys2Proof/Tests/Slice0.lean ====
section
/-! SUPPORT. Tests: words written out bit by bit, the ill-formed terms each check refuses, single steps with the results of
spec/95_test_vectors.md (S<n>, V<n> are its numbers), and for every obligation with hypotheses a state that meets them. -/

namespace Sys2Proof

namespace Tests

open Machine

/-! ## Helpers -/

/-- The reset state with a word at 0x200. -/
def start (w : Nat) : State := State.reset.withFetchWord 16 w

/-- Registers V1, V2 and VF of a state set. -/
def regs12F (s : State) (a b f : Byte) : State := ((s.setReg 1 a).setReg 2 b).setReg 15 f

/-- A view of the state after one step. -/
def afterStep {α : Type} (view : State → α) (s : State) : Option α :=
  match step s with
  | .next t => some (view t)
  | _ => none

/-- V1, VF, `pc` and the result. -/
def view1F (s : State) : Byte × Byte × Word × OpResult := (s.reg 1, s.reg 15, s.pc, s.result)

/-! ## Words written out from 30_encoding.md R80, one per constructor -/

theorem test_decode_control_flow :
    decode 0b0000_0000_1110_1110 = some .ret ∧ decode 0b0001_0010_0011_0100 = some (.jp 0x234) ∧
    decode 0b0010_1111_1111_1111 = some (.call 0xFFF) ∧ decode 0b0011_0011_0001_0010 = some (.seVxNn 3 0x12) ∧
    decode 0b0100_0011_0001_0010 = some (.sneVxNn 3 0x12) ∧ decode 0b0101_0001_0010_0000 = some (.seVxVy 1 2) ∧
    decode 0b1001_0001_0010_0000 = some (.sneVxVy 1 2) ∧ decode 0b1011_0001_0010_0011 = some (.jpV0Nnn 0x123) := by decide

theorem test_decode_arithmetic :
    decode 0b0110_1010_0000_0010 = some (.ldVxNn 0xA 2) ∧ decode 0b0111_0001_1111_1111 = some (.addVxNn 1 0xFF) ∧
    decode 0b1000_0001_0010_0000 = some (.ldVxVy 1 2) ∧ decode 0b1000_0001_0010_0001 = some (.orVxVy 1 2) ∧
    decode 0b1000_0001_0010_0010 = some (.andVxVy 1 2) ∧ decode 0b1000_0001_0010_0011 = some (.xorVxVy 1 2) ∧
    decode 0b1000_1010_1011_0100 = some (.addVxVy 0xA 0xB) ∧ decode 0b1000_0001_0010_0101 = some (.subVxVy 1 2) ∧
    decode 0b1000_0001_0010_0110 = some (.shrVx 1 2) ∧ decode 0b1000_0001_0010_0111 = some (.subnVxVy 1 2) ∧
    decode 0b1000_1111_1111_1110 = some (.shlVx 15 15) ∧ decode 0b1100_0001_0000_1111 = some (.rndVxNn 1 0x0F) := by decide

theorem test_decode_display_index_memory :
    decode 0b0000_0000_1110_0000 = some .cls ∧ decode 0b1101_0001_0010_0101 = some (.drw 1 2 5) ∧
    decode 0b1111_0000_0010_1001 = some (.ldFVx 0) ∧ decode 0b1010_0010_1111_0000 = some (.ldINnn 0x2F0) ∧
    decode 0b1111_0010_0001_1110 = some (.addIVx 2) ∧ decode 0b1111_0001_0011_0011 = some (.ldBVx 1) ∧
    decode 0b1111_0010_0101_0101 = some (.ldMemVx 2) ∧ decode 0b1111_0010_0110_0101 = some (.ldVxMem 2) := by decide

theorem test_decode_timers_keypad :
    decode 0b1110_0001_1001_1110 = some (.skp 1) ∧ decode 0b1110_0001_1010_0001 = some (.sknp 1) ∧
    decode 0b1111_0011_0000_0111 = some (.ldVxDt 3) ∧ decode 0b1111_0101_0000_1010 = some (.ldVxK 5) ∧
    decode 0b1111_0011_0001_0101 = some (.ldDtVx 3) ∧ decode 0b1111_0011_0001_1000 = some (.ldStVx 3) := by decide

/-- V6: words that are no instruction. -/
theorem test_decode_unknown :
    [0x0000#16, 0x00E1#16, 0x00FF#16, 0x0123#16, 0x5121#16, 0x512F#16, 0x8008#16, 0x800F#16, 0x9121#16, 0xE000#16,
      0xE09F#16, 0xF000#16, 0xF0FF#16, 0xF01F#16, 0xFFFF#16].all (fun w => (decode w).isNone) = true := by decide +kernel

theorem test_decode_bytes :
    decodeBytes [0x6A, 0x02, 0x6B] = .ok (.ldVxNn 0xA 2, [0x6B]) ∧ decodeBytes [0xFF, 0xFF] = .error (.unknown 0xFFFF) ∧
    decodeBytes [0x6A] = .error .truncated ∧ decodeTableWord 16 0xD125 = some (.drw 1 2 5) := by decide

theorem test_encode :
    encode (.drw 1 2 5) = 0xD125 ∧ encode (.ldVxNn 0xA 2) = 0x6A02 ∧ encode (.shlVx 1 2) = 0x812E ∧
    encode (.ldVxMem 15) = 0xFF65 ∧ encode (.jpV0Nnn 0x123) = 0xB123 := by decide

/-- The rows of 30_encoding.md R80: 34, no two with one pattern. -/
theorem test_opcode_table : opcodeTable.length = 34 ∧ (opcodeTable.map OpcodeRow.pattern).Nodup := by decide

/-! ## What the checks of WellFormed.lean refuse, and accept at the last value in range -/

theorem test_wellFormed_register :
    AsmStatement.wellFormed ⟨.skp, [.reg 16]⟩ = false ∧ AsmStatement.wellFormed ⟨.skp, [.reg 15]⟩ = true := by decide

theorem test_wellFormed_immediate :
    AsmStatement.wellFormed ⟨.ld, [.reg 1, .num 256]⟩ = false ∧ AsmStatement.wellFormed ⟨.ld, [.reg 1, .num 255]⟩ = true := by
  decide

theorem test_wellFormed_address :
    AsmStatement.wellFormed ⟨.jp, [.num 4096]⟩ = false ∧ AsmStatement.wellFormed ⟨.jp, [.num 4095]⟩ = true := by decide

theorem test_wellFormed_height :
    AsmStatement.wellFormed ⟨.drw, [.reg 1, .reg 2, .num 16]⟩ = false ∧
    AsmStatement.wellFormed ⟨.drw, [.reg 1, .reg 2, .num 15]⟩ = true := by decide

/-- Two registers and an 8-bit number, each refused where it is out of range. -/
theorem test_wellFormed_two_operands :
    AsmStatement.wellFormed ⟨.add, [.reg 16, .reg 0]⟩ = false ∧ AsmStatement.wellFormed ⟨.add, [.reg 0, .reg 16]⟩ = false ∧
    AsmStatement.wellFormed ⟨.add, [.reg 16, .num 0]⟩ = false ∧ AsmStatement.wellFormed ⟨.add, [.reg 0, .reg 1]⟩ = true := by
  decide

/-- A shape no row has: CLS with an operand, JP with an offset register other than V0. -/
theorem test_wellFormed_shape :
    AsmStatement.wellFormed ⟨.cls, [.num 0]⟩ = false ∧ AsmStatement.wellFormed ⟨.jp, [.reg 1, .num 0]⟩ = false ∧
    AsmStatement.wellFormed ⟨.ld, [.dt, .num 0]⟩ = false ∧ AsmStatement.wellFormed ⟨.shr, [.reg 1]⟩ = true := by decide

theorem test_wellFormed_font :
    FontConfig.wellFormed ⟨0x1B1, defaultFontData⟩ = false ∧ FontConfig.wellFormed ⟨0x1B0, defaultFontData⟩ = true ∧
    FontConfig.wellFormed ⟨0x050, defaultFontData.tail⟩ = false := by decide

/-! ## The assembler (30_encoding.md R81, R84) -/

theorem test_assemble_text :
    assembleText ['S', 'H', 'R', ' ', 'V', '1'] = some 0x8106 ∧
    assembleText ['L', 'D', ' ', '[', 'I', ']', ',', 'V', 'F'] = some 0xFF55 ∧
    assembleText ['J', 'P', ' ', 'V', '0', ',', ' ', '0', 'x', '2', 'A'] = some 0xB02A ∧
    assembleText ['J', 'P', ' ', '4', '0', '9', '6'] = none := by decide

/-- Trailing spaces, as log 10 settles them. -/
theorem test_assemble_trailing_space :
    assembleText ['C', 'L', 'S', ' '] = some 0x00E0 ∧ assembleText ['J', 'P', ' ', '5', ' '] = none := by decide

/-! ## Control flow -/

/-- V18. -/
theorem test_ret : afterStep (fun t => (t.pc, t.sp, t.stack[1])) { start 0x00EE with sp := 2, stack := State.reset.stack.set 1 0x456 } =
    some (0x456, 1, 0x456) := by decide

/-- V19. -/
theorem test_ret_underflow : afterStep (fun t => (t.pc, t.sp, t.result)) (start 0x00EE) = some (0x202, 0, .error .stackUnderflow) := by
  decide

/-- V13. -/
theorem test_jp_odd : afterStep State.pc (start 0x1201) = some 0x201 := by decide

/-- V16. -/
theorem test_call : afterStep (fun t => (t.pc, t.sp, t.stack[15])) { start 0x2300 with sp := 15 } = some (0x300, 16, 0x202) := by decide

/-- V17. -/
theorem test_call_overflow : afterStep (fun t => (t.pc, t.sp, t.result)) { start 0x2300 with sp := 16 } =
    some (0x202, 16, .error .stackOverflow) := by decide

/-- V21, V22. -/
theorem test_se_immediate : afterStep State.pc ((start 0x3312).setReg 3 0x12) = some 0x204 ∧
    afterStep State.pc ((start 0x3312).setReg 3 0x13) = some 0x202 := by decide

/-- V24, V25. -/
theorem test_sne_immediate : afterStep State.pc ((start 0x4312).setReg 3 0x13) = some 0x204 ∧
    afterStep State.pc ((start 0x4312).setReg 3 0x12) = some 0x202 := by decide

/-- V26, V27. -/
theorem test_se_registers : afterStep State.pc (regs12F (start 0x5120) 7 7 0) = some 0x204 ∧
    afterStep State.pc (regs12F (start 0x5120) 7 8 0) = some 0x202 := by decide

/-- V29, V30. -/
theorem test_sne_registers : afterStep State.pc (regs12F (start 0x9120) 7 8 0) = some 0x204 ∧
    afterStep State.pc (start 0x9110) = some 0x202 := by decide

/-- V33: bits [11:8] are part of NNN. -/
theorem test_jp_v0 : afterStep State.pc ((start 0xB123).setReg 1 5) = some 0x123 := by decide

/-- V34. -/
theorem test_jp_v0_above_memory : afterStep (fun t => (t.pc, t.result)) ((start 0xBFFF).setReg 0 0xFF) = some (0x10FE, .ok) := by
  decide

/-! ## Arithmetic and logic -/

/-- V36: VF as an ordinary destination. -/
theorem test_ld_immediate : afterStep (State.reg · 15) (start 0x6FFF) = some 0xFF := by decide

/-- S10, V37. -/
theorem test_add_immediate : afterStep view1F (regs12F (start 0x7102) 0xFF 0 0x55) = some (0x01, 0x55, 0x202, .ok) := by decide

/-- V40. -/
theorem test_ld_register : afterStep view1F (regs12F (start 0x8120) 0 0x33 0) = some (0x33, 0, 0x202, .ok) := by decide

/-- V41. -/
theorem test_or : afterStep view1F (regs12F (start 0x8121) 0x0F 0xF0 0x77) = some (0xFF, 0x77, 0x202, .ok) := by decide

/-- V42. -/
theorem test_and : afterStep view1F (regs12F (start 0x8122) 0x3C 0x0F 0) = some (0x0C, 0, 0x202, .ok) := by decide

/-- V43, V44. -/
theorem test_xor : afterStep view1F (regs12F (start 0x8123) 0xFF 0x0F 0) = some (0xF0, 0, 0x202, .ok) ∧
    afterStep view1F (regs12F (start 0x8113) 0x5A 0 0) = some (0, 0, 0x202, .ok) := by decide

/-- S6, V45. -/
theorem test_add : afterStep view1F (regs12F (start 0x8124) 250 10 0) = some (4, 1, 0x202, .ok) ∧
    afterStep view1F (regs12F (start 0x8124) 10 5 9) = some (15, 0, 0x202, .ok) := by decide

/-- V48, V49: the flag overwrites a result in VF, and an old VF is an operand. -/
theorem test_add_vf : afterStep view1F (regs12F (start 0x8F14) 1 0 0xFF) = some (1, 1, 0x202, .ok) ∧
    afterStep view1F (regs12F (start 0x81F4) 0xF0 0 0x20) = some (0x10, 1, 0x202, .ok) := by decide

/-- V51, V52. -/
theorem test_sub : afterStep view1F (regs12F (start 0x8125) 5 7 9) = some (0xFE, 0, 0x202, .ok) ∧
    afterStep view1F (regs12F (start 0x8125) 5 5 9) = some (0, 1, 0x202, .ok) := by decide

/-- V54, V55. -/
theorem test_shr : afterStep view1F (regs12F (start 0x8126) 4 0xFF 9) = some (2, 0, 0x202, .ok) ∧
    afterStep view1F (regs12F (start 0x8F06) 0 0 3) = some (0, 1, 0x202, .ok) := by decide

/-- V56, V57. -/
theorem test_subn : afterStep view1F (regs12F (start 0x8127) 5 7 9) = some (2, 1, 0x202, .ok) ∧
    afterStep view1F (regs12F (start 0x8127) 7 5 9) = some (0xFE, 0, 0x202, .ok) := by decide

/-- V59, V60. -/
theorem test_shl : afterStep view1F (regs12F (start 0x810E) 0x81 0 9) = some (2, 1, 0x202, .ok) ∧
    afterStep view1F (regs12F (start 0x812E) 0x40 1 9) = some (0x80, 0, 0x202, .ok) := by decide

/-- V62: the random byte of this `Cycle`, masked. -/
theorem test_rnd : afterStep view1F { start 0xC10F with inputs := [.cycle 0xB7] } = some (0x07, 0, 0x202, .ok) := by decide

/-! ## Display -/

/-- A one-pixel display: `D[0, 0]` on. -/
def dot : Display := setPixel clearDisplay 0 0 true

/-- V65, one cell. -/
theorem test_cls : afterStep (fun t => pixel t.display 0 0) { start 0x00E0 with display := dot } = some false := by decide

/-- V72: an on pixel meets an on cell. The sprite byte is the font's 0x90 at 0x051. -/
theorem test_drw_collision :
    afterStep (fun t => (pixel t.display 0 0, pixel t.display 3 0, t.reg 15)) { start 0xD001 with i := 0x51, display := dot } =
      some (false, true, 1) := by decide

/-- V67, V76: clipped at column 63; a sprite byte above 0xFFF. The sprite byte is the font's 0xF0 at 0x050. -/
theorem test_drw_clip_and_range :
    afterStep (fun t => (pixel t.display 63 0, pixel t.display 0 0, t.reg 15)) (regs12F { start 0xD121 with i := 0x50 } 62 0 9) =
      some (true, false, 0) ∧
    afterStep (fun t => (t.reg 15, t.pc, t.result)) (regs12F { start 0xD003 with i := 0xFFE } 0 0 0x55) =
      some (0x55, 0x202, .error (.addressOutOfRange 0x1000)) := by decide

/-- V80, V82. -/
theorem test_ld_font : afterStep State.i ((start 0xF029).setReg 0 0x0A) = some 0x082 ∧
    afterStep State.i ((start 0xF029).setReg 0 0xFF) = some 0x54B := by decide

/-! ## Index register and memory -/

/-- V84. -/
theorem test_ld_index : afterStep State.i (start 0xAFFF) = some 0xFFF := by decide

/-- V86, V87. -/
theorem test_add_index : afterStep (fun t => (t.i, t.reg 15)) (regs12F { start 0xF11E with i := 0xFFF } 1 0 0x22) = some (0x1000, 0x22) ∧
    afterStep State.i (regs12F { start 0xF11E with i := 0xFFFF } 1 0 0) = some 0 := by decide

/-- V88, V93. -/
theorem test_ld_bcd :
    afterStep (fun t => (readBytes t.mem 0x300 4, t.i)) (regs12F { start 0xF133 with i := 0x300 } 254 0 0) =
      some ([2, 5, 4, 0], 0x300) ∧
    afterStep (fun t => (t.result, t.mem == (start 0xF133).mem)) { start 0xF133 with i := 0xFFE } =
      some (.error (.addressOutOfRange 0x1000), true) := by decide

/-- V94. -/
theorem test_store : afterStep (fun t => (readBytes t.mem 0x300 4, t.i)) ((regs12F { start 0xF255 with i := 0x300 } 2 3 9).setReg 0 1) =
    some ([1, 2, 3, 0], 0x300) := by decide

/-- V98: the base itself is the lowest address out of range. -/
theorem test_store_range : afterStep State.result { start 0xF055 with i := 0x1005 } = some (.error (.addressOutOfRange 0x1005)) := by
  decide

/-- V102, and a register above X is kept. -/
theorem test_load : afterStep (fun t => ((t.reg 0, t.reg 1), (t.reg 4, t.reg 5), t.i)) (((start 0xF465).setReg 5 7).setReg 4 7 |> fun s => { s with i := 0x50 }) =
    some ((0xF0, 0x90), (0xF0, 7), 0x50) := by decide

/-- V101. -/
theorem test_load_range : afterStep (fun t => (t.reg 0, t.result)) ({ start 0xFF65 with i := 0xFF1 }.setReg 0 7) =
    some (7, .error (.addressOutOfRange 0x1000)) := by decide

/-! ## Timers and keypad -/

/-- V103, V107. -/
theorem test_skp : afterStep State.pc (({ start 0xE19E with keys := State.reset.keys.set 5 true } : State).setReg 1 5) = some 0x204 ∧
    afterStep (fun t => (t.pc, t.result)) ((start 0xE19E).setReg 1 0x10) = some (0x202, .error (.keyOutOfRange 0x10)) := by decide

/-- V105, V106. -/
theorem test_sknp : afterStep State.pc ((start 0xE1A1).setReg 1 5) = some 0x204 ∧
    afterStep State.pc (({ start 0xE1A1 with keys := State.reset.keys.set 5 true } : State).setReg 1 5) = some 0x202 := by decide

/-- V109. -/
theorem test_ld_from_dt : afterStep (State.reg · 3) { start 0xF307 with dt := 0x3C } = some 0x3C := by decide

/-- V110. -/
theorem test_ld_to_dt : afterStep (fun t => (t.dt, t.st)) ((start 0xF315).setReg 3 60) = some (60, 0) := by decide

/-- V111. -/
theorem test_ld_to_st : afterStep (fun t => (t.dt, t.st)) ((start 0xF318).setReg 3 10) = some (0, 10) := by decide

/-- V113. -/
theorem test_wait : afterStep (fun t => (t.pc, t.reg 5, t.result)) (start 0xF50A) = some (0x200, 0, .ok) := by decide

/-- V114. -/
theorem test_wait_lowest_key :
    afterStep (fun t => (t.pc, t.reg 5, t.key 3)) { start 0xF50A with keys := (State.reset.keys.set 3 true).set 9 true } =
      some (0x202, 3, true) := by decide

/-! ## The cycle and the host's operations -/

/-- V1: a fetch of the last two cells. -/
theorem test_fetch_last_word : afterStep (fun t => (t.reg 0, t.pc)) ({ State.reset with pc := 0xFFE }.withFetchWord 16 0x6001) =
    some (1, 0x1000) := by decide

/-- V3, V4. -/
theorem test_fetch_range : afterStep (fun t => (t.pc, t.result)) { State.reset with pc := 0xFFF } =
      some (0xFFF, .error (.addressOutOfRange 0x1000)) ∧
    afterStep (fun t => (t.pc, t.result)) { State.reset with pc := 0x10FE } =
      some (0x10FE, .error (.addressOutOfRange 0x10FE)) := by decide

/-- S12. -/
theorem test_unknown_opcode : afterStep (fun t => (t.pc, t.result)) (start 0xFFFF) = some (0x202, .error (.unknownOpcode 0xFFFF)) := by
  decide

/-- V9: a timer stops at 0. -/
theorem test_timer_tick : afterStep (fun t => (t.dt, t.st)) { State.reset with dt := 1, inputs := [.timerTick] } = some (0, 0) := by
  decide

/-- V10. -/
theorem test_set_key : afterStep (fun t => (t.key 3, t.key 4)) { State.reset with inputs := [.setKey 3 true] } = some (true, false) := by
  decide

/-- V117. -/
theorem test_load_rom : afterStep (fun t => (readBytes t.mem 0x200 3, t.reg 0, t.pc)) ({ State.reset with pc := 0x300, inputs := [.loadROM [0x12, 0x00]] }.setReg 0 7) =
    some ([0x12, 0x00, 0x00], 7, 0x300) := by decide

/-- V119, some cells. -/
theorem test_construct :
    afterStep (fun t => (readBytes t.mem 0 2, readBytes t.mem 0x4F 2, t.pc, t.reg 0))
      ({ State.reset with pc := 0x300, inputs := [.construct ⟨0, defaultFontData⟩] }.setReg 0 7) =
      some ([0xF0, 0x90], [0x80, 0x00], 0x200, 0) := by decide +kernel

/-! ## Witnesses: for each obligation with hypotheses, a state that meets them, at the boundary of each clause -/

theorem test_meets_ConstructBuildsTheResetState :
    (∃ s : State, s.inputs = .construct ⟨0x1B0, defaultFontData⟩ :: [] ∧ FontConfig.wellFormed ⟨0x1B0, defaultFontData⟩ = true) ∧
    ∃ s : State, s.inputs = .construct ⟨0, defaultFontData⟩ :: [] ∧ FontConfig.wellFormed ⟨0, defaultFontData⟩ = true :=
  ⟨⟨{ State.reset with inputs := [.construct ⟨0x1B0, defaultFontData⟩] }, rfl, by decide⟩,
    ⟨{ State.reset with inputs := [.construct ⟨0, defaultFontData⟩] }, rfl, by decide⟩⟩

theorem test_meets_LoadRomStoresTheRomOrNothing :
    (∃ (s : State) (b : List Byte), s.inputs = .loadROM b :: [] ∧ b.length = 4096 - 0x200 ∧ Memory.wf s.mem) ∧
    ∃ (s : State) (b : List Byte), s.inputs = .loadROM b :: [] ∧ b.length = 4096 - 0x200 + 1 :=
  ⟨⟨{ State.reset with inputs := [.loadROM (List.replicate 3584 0)] }, _, rfl, List.length_replicate, by decide⟩,
    ⟨{ State.reset with inputs := [.loadROM (List.replicate 3585 0)] }, _, rfl, List.length_replicate⟩⟩

theorem test_meets_BootFetchesTheRom :
    ∃ (s : State) (b : List Byte), s.inputs = [.construct defaultFont, .loadROM b] ∧ defaultFont.wellFormed = true ∧
      2 ≤ b.length ∧ b.length ≤ 4096 - 0x200 :=
  ⟨{ State.reset with inputs := [.construct defaultFont, .loadROM [0x12, 0x00]] }, _, rfl, by decide, by decide, by decide⟩

theorem test_meets_host_operations :
    (∃ s : State, s.inputs = .timerTick :: []) ∧ (∃ s : State, s.inputs = .setKey 15 true :: []) ∧
    ∃ s : State, s.inputs = .observe :: [] :=
  ⟨⟨{ State.reset with inputs := [.timerTick] }, rfl⟩, ⟨{ State.reset with inputs := [.setKey 15 true] }, rfl⟩,
    ⟨{ State.reset with inputs := [.observe] }, rfl⟩⟩

/-- At 0x200 with nothing pending, and at 0xFFE with a `Cycle` pending. -/
theorem test_meets_StepRunsTheDecodedInstruction :
    (∃ s : State, s.cycleNext = true ∧ s.pc.toNat + 1 ≤ 0xFFF ∧
      decode (BitVec.ofNat 16 ((readByte s.mem s.pc.toNat).toNat * 256 + (readByte s.mem (s.pc.toNat + 1)).toNat)) =
        some (.jp 0x234)) ∧
    ∃ s : State, s.cycleNext = true ∧ s.pc.toNat + 1 = 0xFFF ∧
      decode (BitVec.ofNat 16 ((readByte s.mem s.pc.toNat).toNat * 256 + (readByte s.mem (s.pc.toNat + 1)).toNat)) =
        some (.ldVxNn 0 1) :=
  ⟨⟨start 0x1234, by decide⟩, ⟨{ { State.reset with pc := 0xFFE }.withFetchWord 16 0x6001 with inputs := [.cycle 0] }, by decide⟩⟩

theorem test_meets_FetchOutOfRangeIsReportedForever :
    (∃ s : State, s.pc = 0xFFF ∧ s.cycleNext = true ∧ s.inputs = []) ∧ (∃ s : State, s.pc = 0x1000 ∧ s.inputs = []) ∧
    ∃ s t : State, 0xFFF < s.pc.toNat + 1 ∧ step s = .next t ∧ ∀ f rest, s.inputs ≠ .construct f :: rest :=
  ⟨⟨{ State.reset with pc := 0xFFF }, rfl, rfl, rfl⟩, ⟨{ State.reset with pc := 0x1000 }, rfl, rfl⟩,
    ⟨{ State.reset with pc := 0xFFF, inputs := [.timerTick] }, _, by decide, rfl, nofun⟩⟩

theorem test_meets_UnknownOpcodeIsReported : ∃ s : State, s.cycleNext = true ∧ s.fetch = .ok 0xFFFF ∧ decode 0xFFFF = none :=
  ⟨start 0xFFFF, rfl, rfl, rfl⟩

theorem test_meets_ErrorLeavesOnlyTheAdvance :
    (∃ s t : State, s.cycleNext = true ∧ s.fetch = .ok 0x00EE ∧ step s = .next t ∧ t.result = .error .stackUnderflow) ∧
    ∃ s t : State, s.cycleNext = true ∧ s.fetch = .ok 0x1234 ∧ step s = .next t ∧ t.result = .ok :=
  ⟨⟨start 0x00EE, _, rfl, rfl, rfl, rfl⟩, ⟨start 0x1234, _, rfl, rfl, rfl, rfl⟩⟩

theorem test_meets_CycleLeavesTimersAndKeysToTheHost :
    (∃ s t : State, s.cycleNext = true ∧ step s = .next t ∧ t.dt ≠ s.dt) ∧
    ∃ s t : State, s.cycleNext = true ∧ step s = .next t ∧ t.st ≠ s.st :=
  ⟨⟨(start 0xF315).setReg 3 60, _, rfl, rfl, by decide⟩, ⟨(start 0xF318).setReg 3 10, _, rfl, rfl, by decide⟩⟩

theorem test_meets_encoding_statements :
    decode 0x1234 = some (.jp 0x234) ∧ (⟨"CLS", 0x00E0, 0xFFFF⟩ : OpcodeRow) ∈ opcodeTable := by decide

/-- One word under each alternative of the list, and one that is an instruction. -/
theorem test_meets_UnknownWordsAreTheListedOnes :
    decode 0x0FFF = none ∧ decode 0x500F = none ∧ decode 0x9FF1 = none ∧ decode 0x8FFF = none ∧ decode 0xE0A2 = none ∧
    decode 0xFF66 = none ∧ decode 0xFF65 ≠ none := by decide

theorem test_meets_CallPushesTheReturnAddress :
    (∃ s : State, s.sp = (0 : Fin 16).castSucc) ∧ (∃ s : State, s.sp = (15 : Fin 16).castSucc) ∧ ∃ s : State, s.sp.val = 16 :=
  ⟨⟨State.reset, rfl⟩, ⟨{ State.reset with sp := 15 }, rfl⟩, ⟨{ State.reset with sp := 16 }, rfl⟩⟩

theorem test_meets_ReturnPopsTheReturnAddress :
    (∃ s : State, s.sp = (0 : Fin 16).succ) ∧ (∃ s : State, s.sp = (15 : Fin 16).succ) ∧ ∃ s : State, s.sp.val = 0 :=
  ⟨⟨{ State.reset with sp := 1 }, rfl⟩, ⟨{ State.reset with sp := 16 }, rfl⟩, ⟨State.reset, rfl⟩⟩

theorem test_meets_ReturnUndoesCall :
    ∃ s t u : State, s.sp.val < 16 ∧ exec (.call 0x300) s = .next t ∧ u.stack = t.stack ∧ u.sp = t.sp ∧ u.pc = 0x310 :=
  ⟨State.reset, _, { State.reset with stack := State.reset.stack.set 0 0x200, sp := 1, pc := 0x310 }, by decide, rfl, by decide,
    by decide, rfl⟩

theorem test_meets_exec_answers :
    (∃ s t : State, exec (.jpV0Nnn 0x300) s = .next t ∧ t.pc ≠ s.pc) ∧
    (∃ s t : State, exec (.ldMemVx 15) s = .next t ∧ t.i = s.i) ∧ ∃ s t : State, exec (.addVxVy 1 2) s = .next t ∧ t.reg 15 ≠ s.reg 15 :=
  ⟨⟨State.reset, _, rfl, by decide⟩, ⟨State.reset, _, rfl, rfl⟩,
    ⟨regs12F State.reset 250 10 0, _, rfl, by decide⟩⟩

theorem test_meets_SelfJumpIsAFixedPoint : ∃ s : State, s.inputs = [] ∧ s.atSelfJump :=
  ⟨start 0x1200, rfl, 0x200, rfl, rfl⟩

theorem test_meets_random_byte : (∃ s : State, s.rand8 = some 0xB7) ∧ ∃ s : State, s.rand8 = none :=
  ⟨⟨{ State.reset with rand8 := some 0xB7 }, rfl⟩, ⟨State.reset, rfl⟩⟩

/-- `N = 0` at any `I`; the last sprite byte at 0xFFF; the first one above it; and a draw that collides. -/
theorem test_meets_DrawXorsTheSprite :
    (∃ (s : State) (n : Fin 16), s.i = 0xFFFF ∧ (n.val = 0 ∨ s.i.toNat + n.val - 1 ≤ 0xFFF)) ∧
    (∃ (s : State) (n : Fin 16), s.i.toNat + n.val - 1 = 0xFFF ∧ n.val = 15) ∧
    (∃ (s : State) (n : Fin 16), 0 < n.val ∧ s.i.toNat + n.val - 1 = 0x1000) ∧
    ∃ s t : State, exec (.drw 0 0 1) s = .next t ∧ t.reg 15 = 1 :=
  ⟨⟨{ State.reset with i := 0xFFFF }, 0, rfl, .inl rfl⟩, ⟨{ State.reset with i := 0xFF1 }, 15, rfl, rfl⟩,
    ⟨{ State.reset with i := 0xFFE }, 3, by decide, rfl⟩, ⟨{ State.reset with i := 0x50, display := dot }, _, rfl, by decide⟩⟩

theorem test_meets_DecimalDigitsAreStored :
    (∃ s : State, s.i.toNat + 2 = 0xFFF ∧ Memory.wf s.mem) ∧ ∃ s : State, s.i.toNat + 2 = 0x1000 :=
  ⟨⟨{ State.reset with i := 0xFFD }, rfl, by decide⟩, ⟨{ State.reset with i := 0xFFE }, rfl⟩⟩

/-- For FX55 and FX65, with `X = 0xF`. -/
theorem test_meets_RegistersAreStored :
    (∃ (s : State) (x : Reg), s.i.toNat + x.val = 0xFFF ∧ x = 15 ∧ Memory.wf s.mem) ∧
    ∃ (s : State) (x : Reg), s.i.toNat + x.val = 0x1000 ∧ x = 15 :=
  ⟨⟨{ State.reset with i := 0xFF0 }, 15, rfl, rfl, by decide⟩, ⟨{ State.reset with i := 0xFF1 }, 15, rfl, rfl⟩⟩

theorem test_meets_StoreIsSeenByTheNextFetch :
    ∃ s t : State, Memory.wf s.mem ∧ s.i.toNat + (1 : Reg).val ≤ 0xFFF ∧ exec (.ldMemVx 1) s = .next t ∧
      (1 : Reg).val = (0 : Reg).val + 1 ∧ s.pc.toNat = s.i.toNat + (0 : Reg).val :=
  ⟨{ State.reset with i := 0x200 }, _, by decide, by decide, rfl, rfl, rfl⟩

theorem test_meets_MemoriesThatReadAlikeAreEqual :
    ∃ m m' : Memory, m.wf ∧ m'.wf ∧ m ≠ [] ∧ ∀ a, a ≤ 0xFFF → readByte m a = readByte m' a :=
  ⟨[(0x200, 1)], writeByte [] 0x200 1, by decide, by decide, by decide, fun _ _ => rfl⟩

theorem test_meets_KeySkipsReadTheNamedKey :
    (∃ s : State, (s.reg 1).toNat = (15 : Fin 16).val) ∧ ∃ s : State, (s.reg 1).toNat = 0xF + 1 :=
  ⟨⟨State.reset.setReg 1 15, by decide⟩, ⟨State.reset.setReg 1 16, by decide⟩⟩

theorem test_meets_KeyWaitTakesTheLowestKey :
    (∃ s : State, s.key 15 = true ∧ ∀ j, j < 15 → s.key j = false) ∧ ∃ s : State, ∀ k, s.key k = false :=
  ⟨⟨{ State.reset with keys := State.reset.keys.set 15 true }, by decide⟩, ⟨State.reset, by decide⟩⟩

theorem test_meets_KeyWaitRepeatsUntilAKeyIsPressed :
    ∃ s : State, s.inputs = [] ∧ s.fetch = .ok (wordXNN 0xF#4 5 0x0A#8) ∧ ∀ k, s.key k = false :=
  ⟨start 0xF50A, rfl, rfl, by decide⟩

theorem test_meets_noninterference_statements :
    ∃ s t : State, (∀ x nn, (Instr.cls : Instr) ≠ .rndVxNn x nn) ∧
      (∀ x, (Instr.cls : Instr) ≠ .skp x ∧ (Instr.cls : Instr) ≠ .sknp x ∧ (Instr.cls : Instr) ≠ .ldVxK x) ∧
      exec .cls s = .next t :=
  ⟨State.reset, _, nofun, fun _ => ⟨nofun, nofun, nofun⟩, rfl⟩

theorem test_meets_EveryStepKeepsTheInvariant : ∃ s t : State, s.Inv ∧ step s = .next t :=
  ⟨State.reset, _, ⟨by decide, by decide, by decide, by decide⟩, rfl⟩

end Tests

end Sys2Proof
end

section
/-! PROOFS. The effects of an instruction (10_state.md), and what follows from them: how it leaves `pc`, what it leaves alone,
and the invariant every step keeps. -/

namespace Sys2Proof

namespace Machine

/-! ### Registers that a write changes -/

theorem State.eq_of_reg_setReg_ne {s : State} {x r : Reg} {b : Byte} (h : (s.setReg x b).reg r ≠ s.reg r) : r = x := by
  by_contra hx
  exact h (by rw [State.reg_setReg, if_neg (Ne.symm hx)])

theorem State.eq_or_eq_of_reg_setRegAndFlag_ne {s : State} {x r : Reg} {b f : Byte}
    (h : (s.setRegAndFlag x b f).reg r ≠ s.reg r) : r = x ∨ r = vfIndex := by
  by_cases hf : (s.setRegAndFlag x b f).reg r = (s.setReg x b).reg r
  · exact .inl (State.eq_of_reg_setReg_ne (hf ▸ h))
  · exact .inr (State.eq_of_reg_setReg_ne hf)

/-! ### What one instruction can do -/

/-- What an instruction can do to the state it starts from, one case per kind of update: each piece it changes, and where
`pc` and the registers are left. A case that several instructions share has `pc` as the table of 10_state.md R27 and the
written registers as R23 say; the others name their instruction. -/
inductive Effect (s : State) : Instr → State → Prop
  /-- An error is reported, and nothing else happens (60_exceptions.md R251). -/
  | raised {i : Instr} (e : ErrorKind) (hpc : pcAfter i s = s.pc) : Effect s i { s with result := .error e }
  /-- `pc` alone moves: jumps, skips, and the wait for a key. -/
  | jumped {i : Instr} : Effect s i (s.jump (pcAfter i s))
  /-- Registers are written, and nothing else. -/
  | wrote {i : Instr} (v : Vector Byte 16) (hv : ∀ r : Reg, v[r] ≠ s.reg r → mayWriteReg i r = true)
      (hpc : pcAfter i s = s.pc) : Effect s i { s with v := v }
  | cleared : Effect s .cls { s with display := clearDisplay }
  | popped (h : 0 < s.sp.val) :
      Effect s .ret { s with pc := s.stack[s.sp.val - 1], sp := ⟨s.sp.val - 1, by omega⟩ }
  | pushed (nnn : Addr12) (h : s.sp.val < 16) :
      Effect s (.call nnn)
        { s with stack := s.stack.set s.sp s.pc, sp := ⟨s.sp.val + 1, by omega⟩, pc := extendAddr nnn }
  | indexLoaded (nnn : Addr12) : Effect s (.ldINnn nnn) { s with i := extendAddr nnn }
  | indexAdded (x : Reg) : Effect s (.addIVx x) { s with i := indexPlus s.i (s.reg x) }
  | glyphLoaded (x : Reg) : Effect s (.ldFVx x) { s with i := glyphAddr s.fontBase (s.reg x) }
  | drawnRandom (x : Reg) (nn : Byte) : Effect s (.rndVxNn x nn) (s.setReg x (s.randomByte &&& nn)).drawn
  | drewSprite (x y : Reg) (n : Fin 16) (d : Display) (hit : Bool) :
      Effect s (.drw x y n) ({ s with display := d }.setReg vfIndex (flagByte hit))
  | delaySet (x : Reg) : Effect s (.ldDtVx x) { s with dt := s.reg x }
  | soundSet (x : Reg) : Effect s (.ldStVx x) { s with st := s.reg x }
  | storedDigits (x : Reg) (h : s.i.toNat + 3 ≤ Config.memBytes) :
      Effect s (.ldBVx x) { s with mem := writeBytes s.mem s.i.toNat (bcdDigits (s.reg x)) }
  | storedRegs (x : Reg) (h : s.i.toNat + (x.val + 1) ≤ Config.memBytes) :
      Effect s (.ldMemVx x) { s with mem := writeBytes s.mem s.i.toNat (s.regsUpTo x) }

namespace Effect

variable {s : State} {i : Instr}

theorem skipIf {c : Bool} (h : pcAfter i s = if c then s.pc + 2 else s.pc) : Effect s i (s.skipIf c) := by
  have e : s.skipIf c = s.jump (pcAfter i s) := by rw [h]; cases c <;> rfl
  rw [e]
  exact jumped

theorem setReg {x : Reg} (b : Byte) (hx : mayWriteReg i x = true) (hpc : pcAfter i s = s.pc) :
    Effect s i (s.setReg x b) :=
  wrote _ (fun _ hr => State.eq_of_reg_setReg_ne hr ▸ hx) hpc

theorem setRegAndFlag {x : Reg} (b f : Byte) (hx : mayWriteReg i x = true) (hf : mayWriteReg i vfIndex = true)
    (hpc : pcAfter i s = s.pc) : Effect s i (s.setRegAndFlag x b f) := by
  refine wrote _ (fun r hr => ?_) hpc
  rcases State.eq_or_eq_of_reg_setRegAndFlag_ne hr with rfl | rfl
  · exact hx
  · exact hf

/-- The bytes FX65 has loaded reach no register above Vx. -/
theorem setRegsFrom {x : Reg} {bs : List Byte} (h : bs.length = x.val + 1) :
    Effect s (.ldVxMem x) (s.setRegsFrom bs) := by
  refine wrote _ (fun r hr => decide_eq_true ?_) rfl
  by_contra hx
  refine hr ((s.reg_setRegsFrom bs r).trans (List.getD_eq_default _ _ ?_))
  rw [h]
  exact Nat.lt_of_not_le hx

end Effect

/-! ### The table of 10_state.md R27 -/

/-- Everything the key number of a register can be (45_timer_keypad.md R230). -/
theorem keyNumber_cases (vx : Byte) :
    (∃ k : Fin 16, k.val = vx.toNat ∧ keyNumber vx = some k) ∨
    ((∀ k : Fin 16, k.val ≠ vx.toNat) ∧ keyNumber vx = none) := by
  by_cases h : vx.toNat < 16
  · exact .inl ⟨⟨vx.toNat, h⟩, rfl, dif_pos h⟩
  · exact .inr ⟨fun k => by omega, keyNumber_of_ge (Nat.not_lt.1 h)⟩

theorem pcAfter_ret {s : State} (h : 0 < s.sp.val) : pcAfter .ret s = s.stack[s.sp.val - 1] := by
  have hlt : s.sp.val - 1 < s.stack.toList.length := by rw [Vector.length_toList]; omega
  rw [pcAfter, if_neg h.ne', List.getD_eq_getElem _ _ hlt]
  rfl

theorem pcAfter_jpV0Nnn (nnn : Addr12) (s : State) : pcAfter (.jpV0Nnn nnn) s = offsetTarget nnn (s.reg 0) := by
  apply BitVec.eq_of_toNat_eq
  rw [toNat_offsetTarget, pcAfter, BitVec.toNat_ofNat]
  omega

theorem pcAfter_skp {s : State} {x : Reg} {k : Fin 16} (hk : k.val = (s.reg x).toNat) :
    pcAfter (.skp x) s = if s.key k then s.pc + 2 else s.pc := by
  simp [pcAfter, ← hk, Fin.val_inj]

theorem pcAfter_sknp {s : State} {x : Reg} {k : Fin 16} (hk : k.val = (s.reg x).toNat) :
    pcAfter (.sknp x) s = if !s.key k then s.pc + 2 else s.pc := by
  simp [pcAfter, ← hk, Fin.val_inj]

/-- Every instruction answers a next state, with one of the effects of its rule. -/
theorem exec_effect (i : Instr) (s : State) : ∃ t, exec i s = .next t ∧ Effect s i t := by
  cases i with
  | cls => exact ⟨_, rfl, .cleared⟩
  | ret =>
    rcases s.pop_cases with ⟨h, e⟩ | ⟨h, e⟩
    · exact ⟨_, by rw [exec, execRet, e]; rfl, .popped h⟩
    · exact ⟨_, by rw [exec, execRet, e]; rfl, .raised _ (if_pos h)⟩
  | jp nnn => exact ⟨_, rfl, .jumped⟩
  | call nnn =>
    rcases s.push_cases s.pc with ⟨h, e⟩ | ⟨h, e⟩
    · exact ⟨_, by rw [exec, execCall, e]; rfl, .pushed nnn h⟩
    · exact ⟨_, by rw [exec, execCall, e]; rfl, .raised _ (if_pos h)⟩
  | seVxNn | sneVxNn | seVxVy | sneVxVy => exact ⟨_, rfl, .skipIf (by simp [pcAfter])⟩
  | ldVxNn x | addVxNn x | ldVxVy x | orVxVy x | andVxVy x | xorVxVy x | ldVxDt x =>
    exact ⟨_, rfl, .setReg _ (beq_self_eq_true x) rfl⟩
  | addVxVy x | subVxVy x | shrVx x | subnVxVy x | shlVx x =>
    have hx : (x == x || x == vfIndex) = true := by simp
    have hf : (vfIndex == x || vfIndex == vfIndex) = true := by simp
    exact ⟨_, rfl, .setRegAndFlag _ _ hx hf rfl⟩
  | ldINnn nnn => exact ⟨_, rfl, .indexLoaded nnn⟩
  | jpV0Nnn nnn => exact ⟨s.jump (offsetTarget nnn (s.reg 0)), rfl, pcAfter_jpV0Nnn nnn s ▸ .jumped⟩
  | rndVxNn x nn => exact ⟨_, rfl, .drawnRandom x nn⟩
  | drw x y n =>
    rcases checkedRead_cases s.mem s.i n.val with ⟨-, e⟩ | ⟨-, -, e⟩
    · exact ⟨_, by rw [exec, execDrw, e], .drewSprite x y n _ _⟩
    · exact ⟨_, by rw [exec, execDrw, e]; rfl, .raised _ rfl⟩
  | skp x =>
    rcases keyNumber_cases (s.reg x) with ⟨k, hk, e⟩ | ⟨hk, e⟩
    · exact ⟨_, by rw [exec, execSkp, e], .skipIf (pcAfter_skp hk)⟩
    · exact ⟨_, by rw [exec, execSkp, e]; rfl, .raised _ (if_neg fun ⟨k, h, _⟩ => hk k h)⟩
  | sknp x =>
    rcases keyNumber_cases (s.reg x) with ⟨k, hk, e⟩ | ⟨hk, e⟩
    · exact ⟨_, by rw [exec, execSknp, e], .skipIf (pcAfter_sknp hk)⟩
    · exact ⟨_, by rw [exec, execSknp, e]; rfl, .raised _ (if_neg fun ⟨k, h, _⟩ => hk k h)⟩
  | ldVxK x =>
    cases e : s.lowestKey with
    | none =>
      have hpc : pcAfter (.ldVxK x) s = s.pc - 2 := if_pos (State.lowestKey_none.1 e)
      exact ⟨s.jump (s.pc - 2), by rw [exec, execLdVxK, e], hpc ▸ .jumped⟩
    | some k =>
      have hpc : pcAfter (.ldVxK x) s = s.pc :=
        if_neg fun h => Bool.false_ne_true ((h k).symm.trans (State.lowestKey_some e).1)
      exact ⟨_, by rw [exec, execLdVxK, e], .setReg _ (beq_self_eq_true x) hpc⟩
  | ldDtVx x => exact ⟨_, rfl, .delaySet x⟩
  | ldStVx x => exact ⟨_, rfl, .soundSet x⟩
  | addIVx x => exact ⟨_, rfl, .indexAdded x⟩
  | ldFVx x => exact ⟨_, rfl, .glyphLoaded x⟩
  | ldBVx x =>
    rcases s.storeAtI_cases (bcdDigits (s.reg x)) with ⟨h, e⟩ | ⟨-, -, e⟩
    · exact ⟨_, e, .storedDigits x (by simp only [length_bcdDigits, Config.maxAddr, Config.memBytes] at h ⊢; omega)⟩
    · exact ⟨_, e, .raised _ rfl⟩
  | ldMemVx x =>
    rcases s.storeAtI_cases (s.regsUpTo x) with ⟨h, e⟩ | ⟨-, -, e⟩
    · exact ⟨_, e, .storedRegs x (by simp only [State.length_regsUpTo, Config.maxAddr, Config.memBytes] at h ⊢; omega)⟩
    · exact ⟨_, e, .raised _ rfl⟩
  | ldVxMem x =>
    rcases checkedRead_cases s.mem s.i (x.val + 1) with ⟨-, e⟩ | ⟨-, -, e⟩
    · exact ⟨_, by rw [exec, execLdVxMem, e], .setRegsFrom (length_readBytes ..)⟩
    · exact ⟨_, by rw [exec, execLdVxMem, e]; rfl, .raised _ rfl⟩

/-- What an instruction answered is one of its effects. -/
theorem effect_of_exec {i : Instr} {s t : State} (h : exec i s = .next t) : Effect s i t := by
  obtain ⟨u, hu, he⟩ := exec_effect i s
  cases h.symm.trans hu
  exact he

/-! ### `pc`, the frame, the registers -/

theorem Effect.pc_eq {i : Instr} {s t : State} (h : Effect s i t) : t.pc = pcAfter i s := by
  cases h with
  | raised e hpc => exact hpc.symm
  | wrote v hv hpc => exact hpc.symm
  | popped h => exact (pcAfter_ret h).symm
  | pushed nnn h => exact (if_neg h.ne).symm
  | _ => rfl

/-- Settles O28: the effect of each instruction leaves `pc` as the table of 10_state.md R27 says. -/
theorem pcAfterEachInstruction : Obligations.PcAfterEachInstruction :=
  fun _ _ _ h => (effect_of_exec h).pc_eq

/-- Settles O51: every effect but the first three names its instruction, and these three leave each of the pieces alone. -/
theorem onlyTheNamedInstructionsWriteEachPiece : Obligations.OnlyTheNamedInstructionsWriteEachPiece := by
  intro i s t h
  cases effect_of_exec h <;> simp

/-- Settles O52: three effects write registers, and each changes only those its instruction may write. -/
theorem onlyDestinationRegistersChange : Obligations.OnlyDestinationRegistersChange := by
  intro i s t r h hr
  cases effect_of_exec h with
  | wrote v hv hpc => exact hv r hr
  | drawnRandom x nn => exact beq_iff_eq.2 (State.eq_of_reg_setReg_ne hr)
  | drewSprite x y n d hit => exact beq_iff_eq.2 (State.eq_of_reg_setReg_ne hr)
  | _ => exact absurd rfl hr

/-! ### The keypad -/

/-- The state with another keypad. -/
def State.withKeys (s : State) (ks : Vector Bool 16) : State := { s with keys := ks }

section

variable {s t : State} (ks : Vector Bool 16)

theorem State.skipIf_withKeys (s : State) (c : Bool) : (s.withKeys ks).skipIf c = (s.skipIf c).withKeys ks := by
  cases c <;> rfl

theorem execRet_withKeys (h : execRet s = .next t) : execRet (s.withKeys ks) = .next (t.withKeys ks) := by
  unfold execRet State.pop at h ⊢
  by_cases hp : 0 < s.sp.val <;> simp only [State.withKeys, hp, ↓reduceDIte] at h ⊢ <;> cases h <;> rfl

theorem execCall_withKeys {nnn : Addr12} (h : execCall nnn s = .next t) :
    execCall nnn (s.withKeys ks) = .next (t.withKeys ks) := by
  unfold execCall State.push at h ⊢
  by_cases hp : s.sp.val < 16 <;> simp only [State.withKeys, hp, ↓reduceDIte] at h ⊢ <;> cases h <;> rfl

theorem execDrw_withKeys {x y : Reg} {n : Fin 16} (h : execDrw x y n s = .next t) :
    execDrw x y n (s.withKeys ks) = .next (t.withKeys ks) := by
  unfold execDrw at h ⊢
  cases e : checkedRead s.mem s.i n.val <;> simp only [State.withKeys, e] at h ⊢ <;> cases h <;> rfl

theorem State.storeAtI_withKeys {bs : List Byte} (h : s.storeAtI bs = .next t) :
    (s.withKeys ks).storeAtI bs = .next (t.withKeys ks) := by
  unfold State.storeAtI at h ⊢
  cases e : checkedStore s.mem s.i bs <;> simp only [State.withKeys, e] at h ⊢ <;> cases h <;> rfl

theorem execLdVxMem_withKeys {x : Reg} (h : execLdVxMem x s = .next t) :
    execLdVxMem x (s.withKeys ks) = .next (t.withKeys ks) := by
  unfold execLdVxMem at h ⊢
  cases e : checkedRead s.mem s.i (x.val + 1) <;> simp only [State.withKeys, e] at h ⊢ <;> cases h <;> rfl

end

/-- Settles O55: each rule takes the same branch with another keypad, and carries the keypad through. -/
theorem onlyKeyInstructionsReadTheKeypad : Obligations.OnlyKeyInstructionsReadTheKeypad := by
  intro i s t ks hi h
  cases i with
  | ret => exact execRet_withKeys ks h
  | call nnn => exact execCall_withKeys ks h
  | drw x y n => exact execDrw_withKeys ks h
  | ldBVx x => exact State.storeAtI_withKeys ks h
  | ldMemVx x => exact State.storeAtI_withKeys ks h
  | ldVxMem x => exact execLdVxMem_withKeys ks h
  | skp x => exact absurd rfl (hi x).1
  | sknp x => exact absurd rfl (hi x).2.1
  | ldVxK x => exact absurd rfl (hi x).2.2
  | seVxNn | sneVxNn | seVxVy | sneVxVy =>
    cases h
    exact congrArg Host.Outcome.next (State.skipIf_withKeys ks s _)
  | _ => cases h; rfl

/-! ### The invariant -/

/-- Settles O56. -/
theorem resetMeetsTheInvariant : Obligations.ResetMeetsTheInvariant where
  mem := wf_nil
  pc := by decide
  stack := by decide
  font := by decide

theorem toNat_ite_le {c : Prop} [Decidable c] {a b : Word} {n : Nat} (ha : a.toNat ≤ n) (hb : b.toNat ≤ n) :
    (if c then a else b).toNat ≤ n := by
  split
  · exact ha
  · exact hb

/-- After the advance of a `Cycle` from an address it can fetch at, no entry of the table of R27 is above 0x10FE
(10_state.md R29). -/
theorem toNat_pcAfter_le (i : Instr) {s : State} (hlo : 2 ≤ s.pc.toNat) (hhi : s.pc.toNat ≤ 0x1000)
    (hs : ∀ k : Fin 16, s.stack[k].toNat ≤ 0x1000) : (pcAfter i s).toNat ≤ 0x10FE := by
  have hpc : s.pc.toNat ≤ 0x10FE := by omega
  have hskip : (s.pc + 2).toNat ≤ 0x10FE := by bv_omega
  have hback : (s.pc - 2).toNat ≤ 0x10FE := by bv_omega
  have haddr (nnn : Addr12) : (extendAddr nnn).toNat ≤ 0x10FE := by rw [toNat_extendAddr]; omega
  cases i with
  | ret =>
    rcases Nat.eq_zero_or_pos s.sp.val with h | h
    · rw [pcAfter, if_pos h]
      exact hpc
    · rw [pcAfter_ret h]
      exact (hs ⟨s.sp.val - 1, by omega⟩).trans (by decide)
  | jp nnn => exact haddr nnn
  | call nnn => exact toNat_ite_le hpc (haddr nnn)
  | jpV0Nnn nnn => rw [pcAfter_jpV0Nnn, toNat_offsetTarget]; omega
  | ldVxK x => exact toNat_ite_le hback hpc
  | seVxNn | sneVxNn | seVxVy | sneVxVy | skp | sknp => exact toNat_ite_le hskip hpc
  | _ => exact hpc

/-- The constraint of 00_scope.md R8. -/
theorem fontConfig_wellFormed_iff {f : FontConfig} : f.wellFormed = true ↔
    f.base.toNat + Config.fontBytes ≤ Config.romBase ∧ f.data.length = Config.fontBytes := by
  rw [FontConfig.wellFormed, Bool.and_eq_true, decide_eq_true_iff, beq_iff_eq]

namespace State.Inv

variable {s t : State}

/-- An instruction keeps the invariant when it runs after the advance of a `Cycle`. -/
theorem of_exec {i : Instr} (hs : s.Inv) (hlo : 2 ≤ s.pc.toNat) (hhi : s.pc.toNat ≤ 0x1000)
    (h : exec i s = .next t) : t.Inv := by
  have hpc : t.pc.toNat ≤ 0x10FE := (effect_of_exec h).pc_eq ▸ toNat_pcAfter_le i hlo hhi hs.stack
  cases effect_of_exec h with
  | pushed nnn hsp =>
    refine ⟨hs.mem, hpc, fun k => ?_, hs.font⟩
    simp only [Fin.getElem_fin, Vector.getElem_set]
    exact toNat_ite_le hhi (hs.stack k)
  | storedDigits x hr => exact ⟨wf_writeBytes hs.mem hr, hpc, hs.stack, hs.font⟩
  | storedRegs x hr => exact ⟨wf_writeBytes hs.mem (by rwa [length_regsUpTo]), hpc, hs.stack, hs.font⟩
  | _ => exact ⟨hs.mem, hpc, hs.stack, hs.font⟩

theorem of_runCycle {r : Option Byte} (hs : s.Inv) (h : runCycle r s = .next t) : t.Inv := by
  rcases s.fetch_cases with ⟨hpc, hf⟩ | ⟨-, hf⟩
  · have hle : s.pc.toNat + 1 ≤ 0xFFF := hpc
    have hadv : (s.pc + 2).toNat = s.pc.toNat + 2 := by bv_omega
    have hadv_le : (s.pc + 2).toNat ≤ 0x1000 := by omega
    cases hd : decode (wordOfBytes (readByte s.mem s.pc.toNat) (readByte s.mem (s.pc.toNat + 1))) with
    | none =>
      rw [runCycle_unknown hf hd] at h
      cases h
      exact ⟨hs.mem, hadv_le.trans (by decide), hs.stack, hs.font⟩
    | some i =>
      rw [runCycle_instr hf hd] at h
      have hs' : State.Inv { s with rand8 := r, pc := s.pc + 2, result := .ok } :=
        ⟨hs.mem, hadv_le.trans (by decide), hs.stack, hs.font⟩
      exact hs'.of_exec (hadv ▸ Nat.le_add_left ..) hadv_le h
  · rw [runCycle_fetchError hf] at h
    cases h
    exact ⟨hs.mem, hs.pc, hs.stack, hs.font⟩

/-- `Construct` meets the invariant from any state (70_reset_and_hazards.md R280). -/
theorem of_runConstruct {f : FontConfig} (h : runConstruct f s = .next t) : t.Inv := by
  unfold runConstruct at h
  split at h
  · next hf =>
    obtain ⟨hbase, hlen⟩ := fontConfig_wellFormed_iff.1 hf
    cases h
    refine ⟨wf_writeBytes wf_zeroMemory ?_, resetMeetsTheInvariant.pc, resetMeetsTheInvariant.stack, hbase⟩
    rw [hlen]
    exact hbase.trans (by decide)
  · cases h

theorem of_runLoadRom {bytes : List Byte} (hs : s.Inv) (h : runLoadRom bytes s = .next t) : t.Inv := by
  unfold runLoadRom at h
  split at h
  · cases h
    exact ⟨hs.mem, hs.pc, hs.stack, hs.font⟩
  · next hlen =>
    cases h
    exact ⟨wf_writeBytes hs.mem (Nat.add_le_add_left (Nat.le_of_not_lt hlen) _), hs.pc, hs.stack, hs.font⟩

/-- Every call of the host keeps the invariant. -/
theorem of_runHostOp {op : HostOp} (hs : s.Inv) (h : runHostOp op s = .next t) : t.Inv := by
  cases op with
  | construct f => exact of_runConstruct h
  | loadROM bytes => exact hs.of_runLoadRom h
  | cycle r => exact hs.of_runCycle h
  | timerTick | setKey | observe => cases h; exact ⟨hs.mem, hs.pc, hs.stack, hs.font⟩

end State.Inv

/-- Settles O57: each call of the host keeps the invariant, with or without its entry in the list of pending calls. -/
theorem everyStepKeepsTheInvariant : Obligations.EveryStepKeepsTheInvariant := by
  intro s t hs h
  cases e : s.inputs with
  | nil => exact hs.of_runCycle (step_of_inputs_nil e ▸ h)
  | cons op rest =>
    have hs' : State.Inv { s with inputs := rest } := ⟨hs.mem, hs.pc, hs.stack, hs.font⟩
    exact hs'.of_runHostOp (step_of_inputs_cons e ▸ h)

end Machine

end Sys2Proof
end

section
/-! PROOFS. What FX55 stores (44_index_memory.md R213), and the word the next `Cycle` fetches there (20_memory.md R64). -/

namespace Sys2Proof

namespace Machine

/-! ### The word two bytes make -/

/-- High byte first (20_memory.md R52). -/
theorem wordOfBytes_eq_ofNat (hi lo : Byte) : wordOfBytes hi lo = BitVec.ofNat 16 (hi.toNat * 256 + lo.toNat) := by
  have happend : (wordOfBytes hi lo).toNat = hi.toNat * 256 + lo.toNat := by
    rw [wordOfBytes, BitVec.toNat_append, ← Nat.shiftLeft_add_eq_or_of_lt lo.isLt, Nat.shiftLeft_eq]
  rw [← happend, BitVec.ofNat_toNat, BitVec.setWidth_eq]

/-! ### FX55 in range -/

section

variable {s : State} {x : Reg}

theorem exec_ldMemVx_of_le (h : s.i.toNat + x.val ≤ 0xFFF) :
    exec (.ldMemVx x) s = .next { s with mem := writeBytes s.mem s.i.toNat (s.regsUpTo x) } := by
  rcases s.storeAtI_cases (s.regsUpTo x) with ⟨-, e⟩ | ⟨-, hout, -⟩
  · exact e
  · rw [State.length_regsUpTo] at hout
    exact absurd hout (Nat.not_lt.2 h)

theorem readByte_writeBytes_regsUpTo (hm : s.mem.wf) (h : s.i.toNat + x.val ≤ 0xFFF) {k : Reg} (hk : k ≤ x) :
    readByte (writeBytes s.mem s.i.toNat (s.regsUpTo x)) (s.i.toNat + k.val) = s.reg k := by
  have hrange : s.i.toNat + (s.regsUpTo x).length ≤ Config.memBytes := by
    rw [State.length_regsUpTo]
    exact Nat.succ_le_succ h
  have hlen : k.val < (s.regsUpTo x).length := by
    rw [State.length_regsUpTo]
    exact Nat.lt_succ_of_le hk
  rw [readByte_writeBytes_inside hm hrange hlen, State.getElem_regsUpTo]

end

/-! ### A fetch in range -/

theorem State.fetch_of_bytes {s : State} {hi lo : Byte} (h : s.pc.toNat + 1 ≤ 0xFFF)
    (hhi : readByte s.mem s.pc.toNat = hi) (hlo : readByte s.mem (s.pc.toNat + 1) = lo) :
    s.fetch = .ok (BitVec.ofNat 16 (hi.toNat * 256 + lo.toNat)) := by
  rcases s.fetch_cases with ⟨-, e⟩ | ⟨hout, -⟩
  · rw [e, hhi, hlo, wordOfBytes_eq_ofNat]
  · exact absurd hout (Nat.not_lt.2 h)

/-- Settles O45: FX55 leaves `pc` where it is, so the fetch reads bytes `j` and `j + 1` of the run it stored. -/
theorem storeIsSeenByTheNextFetch : Obligations.StoreIsSeenByTheNextFetch := by
  intro x s t hm hx h j k hjk hk hpc
  have hkx : k.val ≤ x.val := hk
  have hj : j ≤ x := Fin.le_def.2 (by omega)
  have hpc' : s.pc.toNat + 1 = s.i.toNat + k.val := by omega
  have hle : s.pc.toNat + 1 ≤ 0xFFF := by omega
  cases (exec_ldMemVx_of_le hx).symm.trans h
  exact State.fetch_of_bytes hle (hpc ▸ readByte_writeBytes_regsUpTo hm hx hj)
    (hpc' ▸ readByte_writeBytes_regsUpTo hm hx hk)

end Machine

end Sys2Proof
end

section
/-! PROOFS. The decoder and the encoder undo each other (30_encoding.md R74, R75), and the words that are no instruction
(60_exceptions.md R254). -/

namespace Sys2Proof

/-! ### The word of an instruction -/

/-- Settles O15: each format of 30_encoding.md R71 gives its fields back, and these choose the row and its operands. -/
theorem decodeOfEncode : Obligations.DecodeOfEncode := by
  intro i
  cases i with
  | cls | ret => rfl
  | jp | call | ldINnn | jpV0Nnn => simp only [encode, decode, fieldOp_wordNNN, fieldNNN_wordNNN]
  | seVxNn | sneVxNn | ldVxNn | addVxNn | rndVxNn =>
    simp only [encode, decode, fieldOp_wordXNN, fieldX_wordXNN, fieldNN_wordXNN]
  | seVxVy | sneVxVy =>
    simp only [encode, decode, fieldOp_wordXYN, fieldX_wordXYN, fieldY_wordXYN, fieldSub_wordXYN, if_true]
  | ldVxVy | orVxVy | andVxVy | xorVxVy | addVxVy | subVxVy | shrVx | subnVxVy | shlVx =>
    simp only [encode, decode, decodeAlu, fieldOp_wordXYN, fieldX_wordXYN, fieldY_wordXYN, fieldSub_wordXYN]
  | drw => simp only [encode, decode, fieldOp_wordXYN, fieldX_wordXYN, fieldY_wordXYN, fieldN_wordXYN]
  | skp | sknp => simp only [encode, decode, decodeKey, fieldOp_wordXNN, fieldX_wordXNN, fieldNN_wordXNN]
  | ldVxDt | ldVxK | ldDtVx | ldStVx | addIVx | ldFVx | ldBVx | ldMemVx | ldVxMem =>
    simp only [encode, decode, decodeMisc, fieldOp_wordXNN, fieldX_wordXNN, fieldNN_wordXNN]

/-! ### What a word decodes to -/

section

variable {w : Word} {op n : BitVec 4} {nn : Byte}

theorem wordNNN_of_fields (hop : fieldOp w = op) : wordNNN op (fieldNNN w) = w := hop ▸ wordNNN_fields w

theorem wordXNN_of_fields (hop : fieldOp w = op) (hnn : fieldNN w = nn) : wordXNN op (fieldX w) nn = w :=
  hop ▸ hnn ▸ wordXNN_fields w

theorem wordXYN_of_fields (hop : fieldOp w = op) (hsub : fieldSub w = n) :
    wordXYN op (fieldX w) (fieldY w) n = w := hop ▸ hsub ▸ wordXYN_fields w

end

/-- The list of 60_exceptions.md R254, in the fields of 30_encoding.md R72. -/
def UnknownWord (w : Word) : Prop :=
  (fieldOp w = 0x0#4 ∧ w ≠ 0x00E0#16 ∧ w ≠ 0x00EE#16) ∨
  (fieldOp w = 0x5#4 ∧ fieldSub w ≠ 0x0#4) ∨
  (fieldOp w = 0x9#4 ∧ fieldSub w ≠ 0x0#4) ∨
  (fieldOp w = 0x8#4 ∧ fieldSub w ∈ [0x8#4, 0x9#4, 0xA#4, 0xB#4, 0xC#4, 0xD#4, 0xF#4]) ∨
  (fieldOp w = 0xE#4 ∧ fieldNN w ∉ [0x9E#8, 0xA1#8]) ∨
  (fieldOp w = 0xF#4 ∧ fieldNN w ∉ [0x07#8, 0x0A#8, 0x15#8, 0x18#8, 0x1E#8, 0x29#8, 0x33#8, 0x55#8, 0x65#8])

/-- No word of an instruction is in the list. -/
theorem not_unknownWord_encode (i : Instr) : ¬ UnknownWord (encode i) := by
  cases i with
  | cls | ret => unfold UnknownWord; decide
  | _ => simp [UnknownWord, encode]

/-- What the decoder can answer for a word: an instruction of which it is the word, or none for a word of the list. -/
inductive Decoding (w : Word) : Option Instr → Prop
  | instr {i : Instr} (h : encode i = w) : Decoding w (some i)
  | unknown (h : UnknownWord w) : Decoding w none

namespace Decoding

variable {w : Word}

/-- A test chooses between an instruction and the rest of the decoder. -/
theorem ite {c : Prop} [Decidable c] {i : Instr} {o : Option Instr} (hi : c → encode i = w) (ho : ¬ c → Decoding w o) :
    Decoding w (if c then some i else o) := by
  split
  · next h => exact .instr (hi h)
  · next h => exact ho h

theorem of_decodeAlu (hop : fieldOp w = 0x8#4) : Decoding w (decodeAlu w) := by
  unfold decodeAlu
  split
  case h_10 =>
    have hsub : fieldSub w ∈ [0x8#4, 0x9#4, 0xA#4, 0xB#4, 0xC#4, 0xD#4, 0xF#4] := by
      generalize fieldSub w = n at *
      revert n
      decide
    exact .unknown (by simpa [UnknownWord, hop] using hsub)
  all_goals next hsub => exact .instr (wordXYN_of_fields hop hsub)

theorem of_decodeKey (hop : fieldOp w = 0xE#4) : Decoding w (decodeKey w) := by
  unfold decodeKey
  split
  case h_3 h9E hA1 => exact .unknown (by simpa [UnknownWord, hop] using ⟨h9E, hA1⟩)
  all_goals next hnn => exact .instr (wordXNN_of_fields hop hnn)

theorem of_decodeMisc (hop : fieldOp w = 0xF#4) : Decoding w (decodeMisc w) := by
  unfold decodeMisc
  split
  case h_10 h07 h0A h15 h18 h1E h29 h33 h55 h65 =>
    exact .unknown (by simpa [UnknownWord, hop] using ⟨h07, h0A, h15, h18, h1E, h29, h33, h55, h65⟩)
  all_goals next hnn => exact .instr (wordXNN_of_fields hop hnn)

/-- Class by class, grouped by the formats of 30_encoding.md R71; the sixteen classes leave no other. -/
theorem of_decode (w : Word) : Decoding w (decode w) := by
  unfold decode
  split
  case h_1 hop => exact .ite Eq.symm fun hcls => .ite Eq.symm fun hret => .unknown (.inl ⟨hop, hcls, hret⟩)
  case h_2 hop | h_3 hop | h_11 hop | h_12 hop => exact .instr (wordNNN_of_fields hop)
  case h_4 hop | h_5 hop | h_7 hop | h_8 hop | h_13 hop => exact .instr (wordXNN_of_fields hop rfl)
  case h_6 hop | h_10 hop =>
    exact .ite (wordXYN_of_fields hop) fun hsub => .unknown (by simpa [UnknownWord, hop] using hsub)
  case h_14 hop => exact .instr (wordXYN_of_fields hop rfl)
  case h_9 hop => exact .of_decodeAlu hop
  case h_15 hop => exact .of_decodeKey hop
  case h_16 hop => exact .of_decodeMisc hop
  case h_17 =>
    exfalso
    generalize fieldOp w = op at *
    revert op
    decide

end Decoding

/-- Settles O16: an instruction is answered only for its own word. -/
theorem encodeOfDecode : Obligations.EncodeOfDecode := by
  intro w i h
  cases h ▸ Decoding.of_decode w with
  | instr hw => exact hw

theorem decode_eq_none_iff (w : Word) : decode w = none ↔ UnknownWord w := by
  constructor
  · intro h
    cases h ▸ Decoding.of_decode w with
    | unknown hw => exact hw
  · intro h
    cases hd : decode w with
    | none => rfl
    | some i => exact absurd (encodeOfDecode w i hd ▸ h) (not_unknownWord_encode i)

/-- Settles O18: the list in fields and the list in numbers are one. -/
theorem unknownWordsAreTheListedOnes : Obligations.UnknownWordsAreTheListedOnes := by
  intro w
  have hop : w.toNat / 4096 = (fieldOp w).toNat := by rw [toNat_fieldOp]; omega
  rw [decode_eq_none_iff, hop, ← toNat_fieldSub, ← toNat_fieldNN]
  simp [UnknownWord, ← BitVec.toNat_inj]

/-! ### The statement of an instruction -/

section

variable (x y : Reg) (nn : Byte) (nnn : Addr12)

theorem checkX_val (mk : Reg → Instr) : checkX mk x.val = some (mk x) := by simp [checkX]

theorem checkXY_val (mk : Reg → Reg → Instr) : checkXY mk x.val y.val = some (mk x y) := by simp [checkXY]

theorem checkXNN_val (mk : Reg → Byte → Instr) : checkXNN mk x.val nn.toNat = some (mk x nn) := by simp [checkXNN]

theorem checkNNN_toNat (mk : Addr12 → Instr) : checkNNN mk nnn.toNat = some (mk nnn) := by simp [checkNNN]

end

/-- The spelling of an instruction in 30_encoding.md R80, with `Vy` written for SHR and SHL too (R82). -/
def Instr.statement : Instr → AsmStatement
  | .cls => ⟨.cls, []⟩
  | .ret => ⟨.ret, []⟩
  | .jp nnn => ⟨.jp, [.num nnn.toNat]⟩
  | .call nnn => ⟨.call, [.num nnn.toNat]⟩
  | .seVxNn x nn => ⟨.se, [.reg x.val, .num nn.toNat]⟩
  | .sneVxNn x nn => ⟨.sne, [.reg x.val, .num nn.toNat]⟩
  | .seVxVy x y => ⟨.se, [.reg x.val, .reg y.val]⟩
  | .ldVxNn x nn => ⟨.ld, [.reg x.val, .num nn.toNat]⟩
  | .addVxNn x nn => ⟨.add, [.reg x.val, .num nn.toNat]⟩
  | .ldVxVy x y => ⟨.ld, [.reg x.val, .reg y.val]⟩
  | .orVxVy x y => ⟨.or, [.reg x.val, .reg y.val]⟩
  | .andVxVy x y => ⟨.and, [.reg x.val, .reg y.val]⟩
  | .xorVxVy x y => ⟨.xor, [.reg x.val, .reg y.val]⟩
  | .addVxVy x y => ⟨.add, [.reg x.val, .reg y.val]⟩
  | .subVxVy x y => ⟨.sub, [.reg x.val, .reg y.val]⟩
  | .shrVx x y => ⟨.shr, [.reg x.val, .reg y.val]⟩
  | .subnVxVy x y => ⟨.subn, [.reg x.val, .reg y.val]⟩
  | .shlVx x y => ⟨.shl, [.reg x.val, .reg y.val]⟩
  | .sneVxVy x y => ⟨.sne, [.reg x.val, .reg y.val]⟩
  | .ldINnn nnn => ⟨.ld, [.idx, .num nnn.toNat]⟩
  | .jpV0Nnn nnn => ⟨.jp, [.reg 0, .num nnn.toNat]⟩
  | .rndVxNn x nn => ⟨.rnd, [.reg x.val, .num nn.toNat]⟩
  | .drw x y n => ⟨.drw, [.reg x.val, .reg y.val, .num n.val]⟩
  | .skp x => ⟨.skp, [.reg x.val]⟩
  | .sknp x => ⟨.sknp, [.reg x.val]⟩
  | .ldVxDt x => ⟨.ld, [.reg x.val, .dt]⟩
  | .ldVxK x => ⟨.ld, [.reg x.val, .key]⟩
  | .ldDtVx x => ⟨.ld, [.dt, .reg x.val]⟩
  | .ldStVx x => ⟨.ld, [.st, .reg x.val]⟩
  | .addIVx x => ⟨.add, [.idx, .reg x.val]⟩
  | .ldFVx x => ⟨.ld, [.font, .reg x.val]⟩
  | .ldBVx x => ⟨.ld, [.bcd, .reg x.val]⟩
  | .ldMemVx x => ⟨.ld, [.atI, .reg x.val]⟩
  | .ldVxMem x => ⟨.ld, [.reg x.val, .atI]⟩

/-- Each spelling meets its row of the check, whose operands are all in range. -/
theorem check_statement (i : Instr) : i.statement.check = some i := by
  cases i with
  | cls | ret => rfl
  | jp | call | ldINnn | jpV0Nnn => exact checkNNN_toNat ..
  | seVxNn | sneVxNn | ldVxNn | addVxNn | rndVxNn => exact checkXNN_val ..
  | seVxVy | sneVxVy | ldVxVy | orVxVy | andVxVy | xorVxVy | addVxVy | subVxVy | shrVx | subnVxVy | shlVx =>
    exact checkXY_val ..
  | drw => simp [Instr.statement, AsmStatement.check]
  | skp | sknp | ldVxDt | ldVxK | ldDtVx | ldStVx | addIVx | ldFVx | ldBVx | ldMemVx | ldVxMem => exact checkX_val ..

/-- Settles O20: the spelling of the instruction is the statement. -/
theorem everyInstructionHasAStatement : Obligations.EveryInstructionHasAStatement :=
  fun i => ⟨i.statement, assemble_of_check (check_statement i)⟩

/-- Settles O19: ten closed evaluations. -/
theorem sampleWordsDecode : Obligations.SampleWordsDecode := by
  unfold Obligations.SampleWordsDecode
  decide

end Sys2Proof
end

section
/-! PROOFS. The cycle (40_cycle.md): what a `Cycle` does with the word it fetches, that every instruction answers, and that
only CXNN reads the random byte. -/

namespace Sys2Proof

namespace Machine

/-! ### What a `Cycle` does -/

/-- Settles O8: the word the two bytes make is the one fetched, and `pc + 2` is the address after it. -/
theorem stepRunsTheDecodedInstruction : Obligations.StepRunsTheDecodedInstruction := by
  intro s i hc hpc hd
  have hadv : BitVec.ofNat 16 ((s.pc.toNat + 2) % 0x10000) = s.pc + 2 := by bv_omega
  rw [hadv]
  exact step_instr hc (State.fetch_of_bytes hpc rfl rfl) hd

/-- Settles O10. -/
theorem unknownOpcodeIsReported : Obligations.UnknownOpcodeIsReported := fun _ _ => step_unknown

/-- Settles O13. -/
theorem everyInstructionAnswers : Obligations.EveryInstructionAnswers :=
  fun i s => (exec_effect i s).imp fun _ => And.left

/-- Of the effects, only a reported error touches the result, and it touches nothing else (60_exceptions.md R251). -/
theorem Effect.result_eq_or_raised {i : Instr} {s t : State} (h : Effect s i t) :
    t.result = s.result ∨ ∃ e, t = { s with result := .error e } := by
  cases h with
  | raised e hpc => exact .inr ⟨e, rfl⟩
  | _ => exact .inl rfl

/-- Settles O11: the advance has set the result to `Ok`, and the instruction leaves it or reports an error. -/
theorem errorLeavesOnlyTheAdvance : Obligations.ErrorLeavesOnlyTheAdvance := by
  intro s t w hc hf h
  cases hd : decode w with
  | none =>
    cases (step_unknown hc hf hd).symm.trans h
    exact .inr ⟨_, rfl⟩
  | some i => exact (effect_of_exec (step_instr hc hf hd ▸ h)).result_eq_or_raised

/-! ### The timers and the keypad -/

section

variable (s : State)

@[simp] theorem State.cycleStart_keys : s.cycleStart.keys = s.keys := by unfold State.cycleStart; split <;> rfl

@[simp] theorem State.cycleStart_fontBase : s.cycleStart.fontBase = s.fontBase := by
  unfold State.cycleStart; split <;> rfl

@[simp] theorem State.cycleStart_dt : s.cycleStart.dt = s.dt := by unfold State.cycleStart; split <;> rfl

@[simp] theorem State.cycleStart_st : s.cycleStart.st = s.st := by unfold State.cycleStart; split <;> rfl

@[simp] theorem State.cycleStart_v : s.cycleStart.v = s.v := by unfold State.cycleStart; split <;> rfl

end

/-- Everything a step that is a `Cycle` can do (40_cycle.md R109): it runs the instruction it fetches, or it reports an
error, of the fetch or of the decoder, and then no piece of state but `pc` has changed. -/
theorem step_cycle_cases {s : State} (hc : s.cycleNext = true) :
    (∃ i, s.fetch = .ok (encode i) ∧ step s = exec i { s.cycleStart with pc := s.pc + 2, result := .ok }) ∨
    ∃ pc e, step s = .next { s.cycleStart with pc := pc, result := .error e } := by
  cases hf : s.fetch with
  | error e => exact .inr ⟨s.cycleStart.pc, e, step_fetchError hc hf⟩
  | ok w =>
    cases hd : decode w with
    | none => exact .inr ⟨_, _, step_unknown hc hf hd⟩
    | some i => exact .inl ⟨i, congrArg Except.ok (encodeOfDecode w i hd).symm, step_instr hc hf hd⟩

/-- Settles O12: an instruction that changes a timer is FX15 or FX18, and the word fetched is the instruction's. -/
theorem cycleLeavesTimersAndKeysToTheHost : Obligations.CycleLeavesTimersAndKeysToTheHost := by
  intro s t hc h
  rcases step_cycle_cases hc with ⟨i, hf, e⟩ | ⟨pc, k, e⟩
  · have hx := e.symm.trans h
    obtain ⟨-, -, -, -, -, hdt, hst, -, hkeys, hfont, -, -⟩ := onlyTheNamedInstructionsWriteEachPiece _ _ _ hx
    simp only [State.cycleStart_dt, State.cycleStart_st, State.cycleStart_keys, State.cycleStart_fontBase]
      at hdt hst hkeys hfont
    refine ⟨hkeys, hfont, fun hne => ?_, fun hne => ?_⟩
    · obtain ⟨x, rfl⟩ := hdt hne
      cases hx
      exact ⟨x, hf, by simp [State.reg]⟩
    · obtain ⟨x, rfl⟩ := hst hne
      cases hx
      exact ⟨x, hf, by simp [State.reg]⟩
  · cases e.symm.trans h
    simp

/-! ### A fetch out of range -/

theorem run_succ_of_step {s t : State} (h : step s = .next t) (n : Nat) :
    Host.Core.run core (n + 1) s = Host.Core.run core n t := by
  simp only [Host.Core.run, core, h]

/-- A run that reaches a state which a step keeps ends there. -/
theorem run_of_step_fixed {s t : State} (hs : step s = .next t) (ht : step t = .next t) (n : Nat) :
    Host.Core.run core (n + 1) s = .next t := by
  induction n generalizing s with
  | zero => exact run_succ_of_step hs 0
  | succ n ih => exact (run_succ_of_step hs (n + 1)).trans (ih ht)

theorem State.fetch_of_outOfRange {s : State} (h : 0xFFF < s.pc.toNat + 1) :
    s.fetch = .error (.addressOutOfRange (if 0xFFF < s.pc.toNat then s.pc else 0x1000)) := by
  rcases s.fetch_cases with ⟨hin, -⟩ | ⟨-, e⟩
  · exact absurd hin (Nat.not_le.2 h)
  · exact e

theorem step_fetchError_of_inputs_nil {s : State} {e : ErrorKind} (hin : s.inputs = []) (hf : s.fetch = .error e) :
    step s = .next { s with rand8 := none, result := .error e } :=
  (step_of_inputs_nil hin).trans (runCycle_fetchError hf)

theorem pc_of_runCycle_fetchError {s t : State} {r : Option Byte} {e : ErrorKind} (hf : s.fetch = .error e)
    (h : runCycle r s = .next t) : t.pc = s.pc := by
  cases (runCycle_fetchError hf).symm.trans h
  rfl

/-- Where nothing can be fetched, `Construct` alone moves `pc` (40_cycle.md R102). -/
theorem pc_of_runHostOp_fetchError {s t : State} {op : HostOp} {e : ErrorKind} (hf : s.fetch = .error e)
    (hop : ∀ f, op ≠ .construct f) (h : runHostOp op s = .next t) : t.pc = s.pc := by
  cases op with
  | construct f => exact absurd rfl (hop f)
  | loadROM bytes =>
    simp only [runHostOp, runLoadRom] at h
    split at h <;> cases h <;> rfl
  | cycle r => exact pc_of_runCycle_fetchError hf h
  | timerTick | setKey | observe => cases h; rfl

/-- Settles O9: the failed `Cycle` keeps `pc`, so the state it leaves fails in the same way and is kept by every later
`Cycle`. -/
theorem fetchOutOfRangeIsReportedForever : Obligations.FetchOutOfRangeIsReportedForever := by
  intro s hpc
  have hf := State.fetch_of_outOfRange hpc
  refine ⟨fun hc => step_fetchError hc hf, fun hin n => ?_, fun t h hop => ?_⟩
  · exact run_of_step_fixed (step_fetchError_of_inputs_nil hin hf) (step_fetchError_of_inputs_nil hin hf) n
  · cases hin : s.inputs with
    | nil => exact pc_of_runCycle_fetchError hf (step_of_inputs_nil hin ▸ h)
    | cons op rest =>
      exact pc_of_runHostOp_fetchError (s := { s with inputs := rest }) hf (fun f e => hop f rest (e ▸ hin))
        (step_of_inputs_cons hin ▸ h)

/-! ### The random byte -/

/-- The answer of a step, with its next state changed by `f`. -/
def mapNext (f : State → State) : StepResult → StepResult
  | .next s => .next (f s)
  | .fault r => .fault r
  | .refused r => .refused r

/-- The state with another `ST`, random byte and counter of free bytes: pieces that no instruction reads (10_state.md R33)
or CXNN alone (40_cycle.md R100). -/
def State.withUnread (s : State) (b : Byte) (r : Option Byte) (d : Nat) : State :=
  { s with st := b, rand8 := r, draws := d }

section

variable (s : State) (b : Byte) (r : Option Byte) (d : Nat)

theorem State.reg_withUnread (x : Reg) : (s.withUnread b r d).reg x = s.reg x := rfl

theorem State.lowestKey_withUnread : (s.withUnread b r d).lowestKey = s.lowestKey := rfl

theorem State.skipIf_withUnread (c : Bool) :
    Host.Outcome.next ((s.withUnread b r d).skipIf c) = mapNext (·.withUnread b r d) (.next (s.skipIf c)) := by
  cases c <;> rfl

theorem State.storeAtI_withUnread (bs : List Byte) :
    (s.withUnread b r d).storeAtI bs = mapNext (·.withUnread b r d) (s.storeAtI bs) := by
  simp only [State.storeAtI, State.withUnread]
  cases checkedStore s.mem s.i bs <;> rfl

/-- Each rule takes the same branch, and carries the three pieces through. -/
theorem exec_withUnread {i : Instr} (hrnd : ∀ x nn, i ≠ .rndVxNn x nn) (hst : ∀ x, i ≠ .ldStVx x) :
    exec i (s.withUnread b r d) = mapNext (·.withUnread b r d) (exec i s) := by
  cases i with
  | rndVxNn x nn => exact absurd rfl (hrnd x nn)
  | ldStVx x => exact absurd rfl (hst x)
  | ret =>
    simp only [exec, execRet, State.pop, State.withUnread]
    by_cases h : 0 < s.sp.val <;> simp only [h, ↓reduceDIte] <;> rfl
  | call nnn =>
    simp only [exec, execCall, State.push, State.withUnread]
    by_cases h : s.sp.val < 16 <;> simp only [h, ↓reduceDIte] <;> rfl
  | drw x y n =>
    simp only [exec, execDrw, State.withUnread]
    cases checkedRead s.mem s.i n.val <;> rfl
  | ldVxMem x =>
    simp only [exec, execLdVxMem, State.withUnread]
    cases checkedRead s.mem s.i (x.val + 1) <;> rfl
  | skp x | sknp x =>
    simp only [exec, execSkp, execSknp, State.reg_withUnread]
    cases keyNumber (s.reg x) with
    | none => rfl
    | some k => exact State.skipIf_withUnread s b r d _
  | ldVxK x =>
    simp only [exec, execLdVxK, State.lowestKey_withUnread]
    cases s.lowestKey <;> rfl
  | ldBVx | ldMemVx => exact State.storeAtI_withUnread s b r d _
  | seVxNn | sneVxNn | seVxVy | sneVxVy => exact State.skipIf_withUnread s b r d _
  | _ => rfl

end

/-- Settles O53: FX18 does not read the random byte, and any other instruction but CXNN leaves `ST` as it is. -/
theorem onlyRndReadsTheRandomByte : Obligations.OnlyRndReadsTheRandomByte := by
  intro i s t r d hrnd h
  by_cases hst : ∃ x, i = .ldStVx x
  · obtain ⟨x, rfl⟩ := hst
    cases h
    rfl
  · obtain ⟨-, -, -, -, -, -, hwrite, -⟩ := onlyTheNamedInstructionsWriteEachPiece i s t h
    have hkeep : s.st = t.st := (not_imp_comm.1 hwrite hst).symm
    have hexec := exec_withUnread s s.st r d hrnd (not_exists.1 hst)
    rw [h, hkeep] at hexec
    exact hkeep ▸ hexec

end Machine

end Sys2Proof
end

section
/-! PROOFS. Control flow (41_control_flow.md): jumps, skips, and the stack that CALL and RET share. -/

namespace Sys2Proof

namespace Machine

/-! ### Jumps -/

/-- Settles O21: the address of the word is the target, extended. -/
theorem jumpSetsPc : Obligations.JumpSetsPc := by
  intro nnn s
  have hjump : exec (.jp nnn) s = .next (s.jump (extendAddr nnn)) := rfl
  exact ⟨decodeOfEncode (.jp nnn), by rw [hjump, extendAddr_eq_ofNat]; rfl⟩

/-- Settles O22: the sum of the two operands fits in `pc`. -/
theorem jumpWithOffsetAddsV0 : Obligations.JumpWithOffsetAddsV0 := fun nnn s =>
  ⟨decodeOfEncode (.jpV0Nnn nnn), s.jump (offsetTarget nnn (s.reg 0)), rfl, toNat_offsetTarget nnn (s.reg 0), rfl⟩

/-! ### The stack at each depth (10_state.md R32) -/

section

variable {s : State}

/-- A push below the limit, at the depth `k` its entry gets. -/
theorem State.push_of_sp_castSucc {k : Fin 16} (hk : s.sp = k.castSucc) (a : Word) :
    s.push a = some { s with stack := s.stack.set k a, sp := k.succ } := by
  simp only [State.push, hk]
  exact dif_pos k.isLt

theorem State.push_of_full (h : s.sp.val = 16) (a : Word) : s.push a = none :=
  dif_neg (by omega)

/-- A pop of the entry at depth `k`. -/
theorem State.pop_of_sp_succ {k : Fin 16} (hk : s.sp = k.succ) :
    s.pop = some (s.stack[k], { s with sp := k.castSucc }) := by
  simp only [State.pop, hk]
  exact dif_pos k.val.succ_pos

theorem State.pop_of_empty (h : s.sp.val = 0) : s.pop = none :=
  dif_neg (by omega)

end

/-! ### CALL and RET -/

/-- Settles O23: the push decides whether the jump happens. -/
theorem callPushesTheReturnAddress : Obligations.CallPushesTheReturnAddress := by
  intro nnn s
  refine ⟨decodeOfEncode (.call nnn), fun k hk => ?_, fun hfull => ?_⟩
  · rw [exec, execCall, State.push_of_sp_castSucc hk, ← extendAddr_eq_ofNat]
    rfl
  · rw [exec, execCall, State.push_of_full hfull]
    rfl

/-- Settles O24: the pop decides whether the jump happens. -/
theorem returnPopsTheReturnAddress : Obligations.ReturnPopsTheReturnAddress := by
  intro s
  refine ⟨decodeOfEncode .ret, fun k hk => ?_, fun hempty => ?_⟩
  · rw [exec, execRet, State.pop_of_sp_succ hk]
    rfl
  · rw [exec, execRet, State.pop_of_empty hempty]
    rfl

/-- Settles O25: the CALL leaves its return address at the depth `k` that the stack had, and the RET takes the entry there. -/
theorem returnUndoesCall : Obligations.ReturnUndoesCall := by
  intro nnn s t u hlt hcall hstack hsp
  obtain ⟨k, hk⟩ : ∃ k : Fin 16, s.sp = k.castSucc := ⟨⟨s.sp.val, hlt⟩, rfl⟩
  obtain ⟨-, hpush, -⟩ := callPushesTheReturnAddress nnn s
  cases hcall.symm.trans (hpush k hk)
  obtain ⟨-, hpop, -⟩ := returnPopsTheReturnAddress u
  have htop : u.stack[k] = s.pc := by rw [hstack]; exact Vector.getElem_set_self ..
  rw [hpop k hsp, htop, hk]

/-! ### Skips (41_control_flow.md R120) -/

/-- A skip moves `pc` alone, by the condition the instruction tests. -/
theorem State.skipIf_eq (s : State) {c : Bool} {p : Prop} [Decidable p] (h : c = true ↔ p) :
    s.skipIf c = { s with pc := if p then s.pc + 2 else s.pc } := by
  simp only [← h]
  cases c <;> rfl

/-- Settles O26. -/
theorem skipsCompareWithAnImmediate : Obligations.SkipsCompareWithAnImmediate := fun x nn s =>
  ⟨decodeOfEncode (.seVxNn x nn), decodeOfEncode (.sneVxNn x nn),
    congrArg Host.Outcome.next (s.skipIf_eq beq_iff_eq), congrArg Host.Outcome.next (s.skipIf_eq bne_iff_ne)⟩

/-- In a class whose rows all have the low nibble 0, no other word is an instruction (60_exceptions.md R254). -/
theorem decode_wordXYN_eq_none {op n : BitVec 4} (hop : op = 0x5#4 ∨ op = 0x9#4) (hn : n ≠ 0x0#4) (x y : Reg) :
    decode (wordXYN op x y n) = none := by
  rw [decode_eq_none_iff]
  rcases hop with rfl | rfl <;> simp [UnknownWord, hn]

/-- Settles O27. -/
theorem skipsCompareTwoRegisters : Obligations.SkipsCompareTwoRegisters := fun x y s =>
  ⟨decodeOfEncode (.seVxVy x y), decodeOfEncode (.sneVxVy x y),
    fun _ hn => ⟨decode_wordXYN_eq_none (.inl rfl) hn x y, decode_wordXYN_eq_none (.inr rfl) hn x y⟩,
    congrArg Host.Outcome.next (s.skipIf_eq beq_iff_eq), congrArg Host.Outcome.next (s.skipIf_eq bne_iff_ne)⟩

end Machine

end Sys2Proof
end

section
/-! PROOFS. Arithmetic and logic (42_arithmetic_logic.md): 8-bit results, the flag they leave in VF, and the random byte. -/

namespace Sys2Proof

namespace Machine

/-! ### Bytes as numbers modulo 256 (42_arithmetic_logic.md R150) -/

theorem byte_add_eq_ofNat (a b : Byte) : a + b = BitVec.ofNat 8 ((a.toNat + b.toNat) % 256) :=
  BitVec.eq_of_toNat_eq (by simp)

theorem byte_and_eq_ofNat (a b : Byte) : a &&& b = BitVec.ofNat 8 (a.toNat &&& b.toNat) := by
  rw [BitVec.ofNat_and, BitVec.ofNat_toNat, BitVec.ofNat_toNat, BitVec.setWidth_eq, BitVec.setWidth_eq]

/-- A decided condition in VF (10_state.md R25). -/
theorem flagByte_decide (p : Prop) [Decidable p] : flagByte (decide p) = if p then 1 else 0 := by
  simp only [flagByte, decide_eq_true_eq]

/-! ### Sums -/

/-- Settles O30: one register is written, and the sum of two bytes is taken modulo 256. -/
theorem immediateLoadAndAdd : Obligations.ImmediateLoadAndAdd := by
  intro x nn s
  have hadd : exec (.addVxNn x nn) s = .next (s.setReg x (s.reg x + nn)) := rfl
  rw [byte_add_eq_ofNat] at hadd
  exact ⟨decodeOfEncode (.ldVxNn x nn), decodeOfEncode (.addVxNn x nn), rfl, hadd⟩

/-- Settles O32: the flag is computed from the operands on entry and is written after the sum, so `X = F` is no case apart. -/
theorem addSetsTheCarry : Obligations.AddSetsTheCarry := by
  intro x y s
  have hadd : exec (.addVxVy x y) s =
      .next (s.setRegAndFlag x (s.reg x + s.reg y) (carryFlag (s.reg x) (s.reg y))) := rfl
  rw [byte_add_eq_ofNat, carryFlag, flagByte_decide] at hadd
  exact ⟨decodeOfEncode (.addVxVy x y), hadd⟩

/-! ### The random byte (40_cycle.md R100) -/

section

variable {s : State} {r : Byte}

theorem State.randomByte_of_rand8 (h : s.rand8 = some r) : s.randomByte = r := by
  rw [State.randomByte, h, Option.getD_some]

/-- A byte that the host handed over takes no free value (log 2). -/
theorem State.drawn_of_rand8 (h : s.rand8 = some r) : s.drawn = s := by
  rw [State.drawn, if_pos (Option.isSome_of_eq_some h)]

end

/-- Settles O35: the random byte is the one handed over, and no free value is counted. -/
theorem randomByteIsMasked : Obligations.RandomByteIsMasked := by
  intro x nn r s hr
  have hrnd : exec (.rndVxNn x nn) s = .next (s.setReg x (s.randomByte &&& nn)).drawn := rfl
  rw [State.drawn_of_rand8 ((s.setReg_rand8 x _).trans hr), State.randomByte_of_rand8 hr, byte_and_eq_ofNat] at hrnd
  exact ⟨decodeOfEncode (.rndVxNn x nn), hrnd⟩

end Machine

end Sys2Proof
end

section
/-! PROOFS. Display and graphics (43_display.md): the cleared display, the sprite in range, and the glyph address. -/

namespace Sys2Proof

namespace Machine

/-! ### CLS -/

/-- Settles O37: the display that CLS leaves is the clear one, whatever the display before. -/
theorem clearScreenClearsEveryCell : Obligations.ClearScreenClearsEveryCell :=
  ⟨decodeOfEncode .cls, fun s => ⟨{ s with display := clearDisplay }, rfl, pixel_clearDisplay, rfl⟩⟩

/-! ### The glyph address (43_display.md R195) -/

theorem glyphAddr_eq_ofNat (fontBase : Word) (vx : Byte) :
    glyphAddr fontBase vx = BitVec.ofNat 16 (fontBase.toNat + 5 * vx.toNat) := by
  apply BitVec.eq_of_toNat_eq
  simp [glyphAddr, extendByte]

/-- Settles O40: `I` is the glyph address, and the sum is the one of numbers. -/
theorem fontAddressOfAnyByte : Obligations.FontAddressOfAnyByte := by
  intro x s
  have hload : exec (.ldFVx x) s = .next { s with i := glyphAddr s.fontBase (s.reg x) } := rfl
  rw [glyphAddr_eq_ofNat] at hload
  exact ⟨decodeOfEncode (.ldFVx x), hload⟩

/-! ### DRW -/

theorem flagByte_eq_one_iff (c : Bool) : flagByte c = 1 ↔ c = true := by cases c <;> decide

theorem flagByte_eq_zero_or_one (c : Bool) : flagByte c = 0 ∨ flagByte c = 1 := by
  cases c
  · exact .inl rfl
  · exact .inr rfl

theorem checkedRead_of_inRange {m : Memory} {base : Word} {n : Nat} (h : n = 0 ∨ base.toNat + n - 1 ≤ 0xFFF) :
    checkedRead m base n = .ok (readBytes m base.toNat n) := by
  rw [checkedRead, outOfRange_none h]

/-- The drawing that DXYN makes of the display, with its whole sprite in memory (43_display.md R192). -/
def State.drawing (s : State) (x y : Reg) (n : Fin 16) : Drawing :=
  drawSprite ⟨s.display, false⟩ (originColumn (s.reg x)) (originRow (s.reg y)) (readBytes s.mem s.i.toNat n.val)

/-- DXYN with its sprite in memory leaves the drawing in the display and its collision in VF (43_display.md R192). -/
theorem exec_drw_of_inRange {x y : Reg} {n : Fin 16} {s : State} (h : n.val = 0 ∨ s.i.toNat + n.val - 1 ≤ 0xFFF) :
    exec (.drw x y n) s = .next ({ s with display := (s.drawing x y n).display }.setReg vfIndex
      (flagByte (s.drawing x y n).collision)) := by
  rw [exec, execDrw, checkedRead_of_inRange h]
  rfl

/-- A sprite flips each cell it covers once, so it collides exactly when it turns some cell off (43_display.md R194). -/
theorem collision_drawSprite_iff_turnedOff {g : Drawing} (hg : g.collision = false) (x0 b : Nat) (rows : List Byte) :
    (drawSprite g x0 b rows).collision = true ↔
      ∃ col row, pixel g.display col row = true ∧ pixel (drawSprite g x0 b rows).display col row = false := by
  have hoff (col : Fin 64) (row : Fin 32) :
      spriteCovers x0 b rows col row ∧ pixel g.display col row = true ↔
        pixel g.display col row = true ∧ pixel (drawSprite g x0 b rows).display col row = false := by
    rw [and_comm]
    refine and_congr_right fun hon => ?_
    rw [pixel_drawSprite, hon, Bool.true_xor, Bool.not_eq_false', decide_eq_true_iff]
  rw [collision_drawSprite, hg, or_iff_right Bool.false_ne_true]
  simp only [hoff]

/-- Settles O39: VF holds the collision of the drawing that the display holds. -/
theorem collisionMeansACellWasTurnedOff : Obligations.CollisionMeansACellWasTurnedOff := by
  intro x y n s t hrange h
  cases (exec_drw_of_inRange hrange).symm.trans h
  rw [State.reg_setReg_self]
  exact ⟨(flagByte_eq_one_iff _).trans (collision_drawSprite_iff_turnedOff rfl ..), flagByte_eq_zero_or_one _⟩

end Machine

end Sys2Proof
end

section
/-! PROOFS. The index register and the memory transfers (44_index_memory.md): sums in `I`, stores at `I`, and loads from `I`. -/

namespace Sys2Proof

namespace Machine

/-! ### The index register -/

theorem indexPlus_eq_ofNat (i : Word) (vx : Byte) :
    indexPlus i vx = BitVec.ofNat 16 ((i.toNat + vx.toNat) % 0x10000) := by
  apply BitVec.eq_of_toNat_eq
  simp [indexPlus, extendByte]

/-- Settles O41: the address of the word is extended, and the sum of `I` and the byte is taken modulo 0x10000. -/
theorem indexLoadAndAdd : Obligations.IndexLoadAndAdd := by
  intro nnn x s
  have hload : exec (.ldINnn nnn) s = .next { s with i := extendAddr nnn } := rfl
  have hadd : exec (.addIVx x) s = .next { s with i := indexPlus s.i (s.reg x) } := rfl
  rw [extendAddr_eq_ofNat] at hload
  rw [indexPlus_eq_ofNat] at hadd
  exact ⟨decodeOfEncode (.ldINnn nnn), decodeOfEncode (.addIVx x), hload, hadd⟩

/-! ### Stores at `I` -/

section

variable {s : State} {bs : List Byte}

/-- A store with all its bytes in memory writes them all (20_memory.md R55). -/
theorem State.storeAtI_of_inRange (h : s.i.toNat + bs.length ≤ 0x1000) :
    s.storeAtI bs = .next { s with mem := writeBytes s.mem s.i.toNat bs } := by
  rcases s.storeAtI_cases bs with ⟨-, e⟩ | ⟨-, hout, -⟩
  · exact e
  · simp only [Config.maxAddr] at hout
    omega

/-- A store with a byte outside memory writes none of them (20_memory.md R53). -/
theorem State.storeAtI_of_outOfRange (h0 : 0 < bs.length) (h : 0x1000 < s.i.toNat + bs.length) : s.storeAtI bs =
    .next { s with result := .error (.addressOutOfRange (if 0xFFF < s.i.toNat then s.i else 0x1000)) } := by
  rcases s.storeAtI_cases bs with ⟨hin, -⟩ | ⟨-, -, e⟩
  · simp only [Config.maxAddr] at hin
    omega
  · exact e

end

/-- Each digit fits in its byte, the hundreds included. -/
theorem toNat_bcdDigits (b : Byte) : (bcdDigits b)[0].toNat = b.toNat / 100 ∧
    (bcdDigits b)[1].toNat = b.toNat / 10 % 10 ∧ (bcdDigits b)[2].toNat = b.toNat % 10 := by
  have hb : b.toNat < 256 := b.isLt
  simp only [bcdDigits, List.getElem_cons_zero, List.getElem_cons_succ, BitVec.toNat_ofNat]
  omega

/-- Settles O42: FX33 is a store of three bytes, the digits. -/
theorem decimalDigitsAreStored : Obligations.DecimalDigitsAreStored := by
  intro x s
  have hlen := length_bcdDigits (s.reg x)
  refine ⟨decodeOfEncode (.ldBVx x), fun hle hm => ?_, fun hlt => State.storeAtI_of_outOfRange (by omega) (by omega)⟩
  have hrange : s.i.toNat + (bcdDigits (s.reg x)).length ≤ 0x1000 := by omega
  have hstored (k : Nat) (hk : k < (bcdDigits (s.reg x)).length) :=
    congrArg BitVec.toNat (readByte_writeBytes_inside hm hrange hk)
  obtain ⟨hhundreds, htens, hunits⟩ := toNat_bcdDigits (s.reg x)
  exact ⟨_, State.storeAtI_of_inRange hrange, rfl, (hstored 0 _).trans hhundreds, (hstored 1 _).trans htens,
    (hstored 2 _).trans hunits, fun a ha => readByte_writeBytes_outside s.mem (by omega)⟩

/-- Settles O43: FX55 is a store of the registers up to Vx. -/
theorem registersAreStored : Obligations.RegistersAreStored := by
  intro x s
  have hlen := s.length_regsUpTo x
  refine ⟨decodeOfEncode (.ldMemVx x), fun hle hm => ?_, fun hlt => State.storeAtI_of_outOfRange (by omega) (by omega)⟩
  exact ⟨_, exec_ldMemVx_of_le hle, rfl, fun k => readByte_writeBytes_regsUpTo hm hle,
    fun a ha => readByte_writeBytes_outside s.mem (by omega)⟩

/-! ### Loads from `I` -/

theorem checkedRead_of_outOfRange {m : Memory} {base : Word} {n : Nat} (h0 : 0 < n) (h : 0xFFF < base.toNat + n - 1) :
    checkedRead m base n = .error (.addressOutOfRange (if 0xFFF < base.toNat then base else 0x1000)) := by
  rw [checkedRead, outOfRange_some h0 h]

theorem getD_readBytes (m : Memory) (base n k : Nat) (d : Byte) :
    (readBytes m base n).getD k d = if k < n then readByte m (base + k) else d := by
  split
  · next hk => rw [← List.getElem_eq_getD (h := by simpa using hk), getElem_readBytes]
  · next hk => exact List.getD_eq_default _ _ (by simpa using hk)

/-- Settles O44: FX65 puts the bytes of the run into the registers up to Vx, and a register beyond keeps its value. -/
theorem registersAreLoaded : Obligations.RegistersAreLoaded := by
  intro x s
  refine ⟨decodeOfEncode (.ldVxMem x), fun hle => ?_, fun hlt => ?_⟩
  · refine ⟨s.setRegsFrom (readBytes s.mem s.i.toNat (x.val + 1)), ?_, rfl, fun k => ?_⟩
    · rw [exec, execLdVxMem, checkedRead_of_inRange (.inr hle)]
    · simp only [State.reg_setRegsFrom, getD_readBytes, Nat.lt_succ_iff, Fin.le_def]
  · rw [exec, execLdVxMem, checkedRead_of_outOfRange (Nat.succ_pos _) hlt]
    rfl

end Machine

end Sys2Proof
end

section
/-! PROOFS. The keypad (45_timer_keypad.md): the skips on a key, and the wait for one. -/

namespace Sys2Proof

namespace Machine

/-! ### The skips on a key -/

theorem keyNumber_eq_some {vx : Byte} {k : Fin 16} (h : vx.toNat = k.val) : keyNumber vx = some k := by
  rcases keyNumber_cases vx with ⟨j, hj, e⟩ | ⟨hne, -⟩
  · rw [e, Fin.ext (hj.trans h)]
  · exact absurd h.symm (hne k)

/-- Settles O48: the key number of Vx decides between the skip and the error. -/
theorem keySkipsReadTheNamedKey : Obligations.KeySkipsReadTheNamedKey := by
  intro x s
  refine ⟨decodeOfEncode (.skp x), decodeOfEncode (.sknp x), fun k hk => ?_, fun hout => ?_⟩
  · have hkey := keyNumber_eq_some hk
    constructor
    · rw [exec, execSkp, hkey]
      exact congrArg Host.Outcome.next (s.skipIf_eq Iff.rfl)
    · rw [exec, execSknp, hkey]
      exact congrArg Host.Outcome.next (s.skipIf_eq (iff_of_eq (Bool.not_eq_true' _)))
  · have hkey := keyNumber_of_ge hout
    constructor
    · rw [exec, execSkp, hkey]
      rfl
    · rw [exec, execSknp, hkey]
      rfl

/-! ### The wait for a key (45_timer_keypad.md R236) -/

/-- A pressed key with no pressed key below it is the only such key, so it is the one found. -/
theorem State.lowestKey_eq_some {s : State} {k : Fin 16} (hk : s.key k = true) (hlow : ∀ j, j < k → s.key j = false) :
    s.lowestKey = some k := by
  cases e : s.lowestKey with
  | none => exact absurd hk (Bool.eq_false_iff.1 (State.lowestKey_none.1 e k))
  | some m =>
    obtain ⟨hm, hmlow⟩ := State.lowestKey_some e
    have hmk : ¬ m < k := fun h => Bool.eq_false_iff.1 (hlow m h) hm
    have hkm : ¬ k < m := fun h => Bool.eq_false_iff.1 (hmlow k h) hk
    exact congrArg some (le_antisymm (not_lt.1 hkm) (not_lt.1 hmk))

/-- Settles O49: the search for the lowest key decides between the load and the wait. -/
theorem keyWaitTakesTheLowestKey : Obligations.KeyWaitTakesTheLowestKey := by
  intro x s
  refine ⟨decodeOfEncode (.ldVxK x), fun k hk hlow => ?_, fun hnone => ?_⟩
  · rw [exec, execLdVxK, State.lowestKey_eq_some hk hlow]
    rfl
  · rw [exec, execLdVxK, State.lowestKey_none.2 hnone]
    rfl

end Machine

end Sys2Proof
end

section
/-! PROOFS. The host's operations (60_exceptions.md): the timer tick, a key set, what `Observe` shows, the wait for a key
that a host ends, and that no instruction reads the sound timer. -/

namespace Sys2Proof

namespace Machine

/-! ### The timer tick -/

/-- The two cases of R258 are one subtraction of numbers, which stops at 0. -/
theorem tickTimer_eq_ofNat (t : Byte) : tickTimer t = BitVec.ofNat 8 (t.toNat - 1) := by
  unfold tickTimer
  split
  · next h => rw [h]; rfl
  · next h => bv_omega

/-- Settles O5: the step is the tick, and each timer's tick is the subtraction. -/
theorem timerTickDecrementsBothTimers : Obligations.TimerTickDecrementsBothTimers := by
  intro s rest hin
  rw [step_of_inputs_cons hin, ← tickTimer_eq_ofNat, ← tickTimer_eq_ofNat]
  rfl

/-! ### One key set -/

/-- The keypad with one key set reads as before at every other key. -/
theorem State.key_withKeys_set (s : State) (k j : Fin 16) (b : Bool) :
    (s.withKeys (s.keys.set k b)).key j = if j = k then b else s.key j := by
  simp only [State.key, State.withKeys, Fin.getElem_fin, Vector.getElem_set, Fin.val_inj, eq_comm]

theorem step_setKey {s : State} {k : Fin 16} {b : Bool} {rest : List HostOp} (hin : s.inputs = .setKey k b :: rest) :
    step s = .next { s with inputs := rest, keys := s.keys.set k b, result := .noResult } :=
  step_of_inputs_cons hin

/-- Settles O6: the step is the update of the keypad at `k`. -/
theorem setKeySetsOneKey : Obligations.SetKeySetsOneKey := fun s k b _ hin =>
  ⟨_, step_setKey hin, fun j => s.key_withKeys_set k j b, rfl⟩

/-! ### What `Observe` shows -/

theorem getElem?_readBytes {m : Memory} {base n k : Nat} (h : k < n) :
    (readBytes m base n)[k]? = some (readByte m (base + k)) := by
  rw [List.getElem?_eq_getElem (by rwa [length_readBytes]), getElem_readBytes]

/-- The array the host reads is the rows of the display one after the other, each cell as its word. -/
theorem displayWords_eq_flatten (d : Display) :
    displayWords d = (d.map fun row => row.map cellWord).flatten.toList := by
  simp [displayWords, Vector.flatten, Vector.toList, Function.comp_def]

/-- `D[x, y]` is element `y * 64 + x` of the array (10_state.md R37). -/
theorem getElem?_displayWords (d : Display) (x : Fin 64) (y : Fin 32) :
    (displayWords d)[y.val * 64 + x.val]? = some (cellWord (pixel d x y)) := by
  have hdiv : (y.val * 64 + x.val) / 64 = y.val := by omega
  have hmod : (y.val * 64 + x.val) % 64 = x.val := by omega
  have hlt : y.val * 64 + x.val < 32 * 64 := by omega
  rw [displayWords_eq_flatten, Vector.getElem?_toList, Vector.getElem?_eq_getElem hlt, Vector.getElem_flatten]
  simp only [hdiv, hmod, Vector.getElem_map]
  rfl

/-- Settles O7: `Observe` leaves the machine as it is, and each field of the answer is read out of one piece of state. -/
theorem observeShowsTheWholeState : Obligations.ObserveShowsTheWholeState := by
  intro s rest hin
  have hmem (a : Nat) (ha : a ≤ 0xFFF) : s.observation.memory[a]? = some (readByte s.mem a) := by
    rw [State.observation, getElem?_readBytes (Nat.lt_succ_iff.2 ha), Nat.zero_add]
  have hstack (k : Fin 16) : s.observation.stack[k.val]? = some s.stack[k] :=
    Vector.getElem?_toList.trans (Vector.getElem?_eq_getElem k.isLt)
  have hregs (x : Reg) : s.observation.registers[x.val]? = some (s.reg x) :=
    Vector.getElem?_toList.trans (Vector.getElem?_eq_getElem x.isLt)
  have hkeys (k : Fin 16) : s.observation.keypad[k.val]? = some (s.key k) :=
    Vector.getElem?_toList.trans (Vector.getElem?_eq_getElem k.isLt)
  exact ⟨step_of_inputs_cons hin, hmem, getElem?_displayWords s.display, rfl, rfl, rfl, hstack, rfl, rfl, hregs, hkeys⟩

/-! ### The wait for a key (60_exceptions.md R269) -/

section

variable {s : State} {x : Reg}

/-- A `Cycle` at an FX0A is the instruction's rule after the advance. -/
theorem step_keyWait (hin : s.inputs = []) (hf : s.fetch = .ok (wordXNN 0xF#4 x 0x0A#8)) :
    step s = exec (.ldVxK x) { s with rand8 := none, pc := s.pc + 2, result := .ok } :=
  (step_of_inputs_nil hin).trans (runCycle_instr hf (decodeOfEncode (.ldVxK x)))

/-- The wait takes back the advance, so `pc` is at the FX0A again. -/
theorem step_keyWait_of_noKey (hin : s.inputs = []) (hf : s.fetch = .ok (wordXNN 0xF#4 x 0x0A#8))
    (hnone : ∀ k, s.key k = false) : step s = .next { s with rand8 := none, result := .ok } := by
  obtain ⟨-, -, hwait⟩ := keyWaitTakesTheLowestKey x { s with rand8 := none, pc := s.pc + 2, result := .ok }
  have hpc : s.pc + 2 - 2 = s.pc := BitVec.add_sub_cancel ..
  rw [step_keyWait hin hf, hwait hnone, hpc]

/-- The lowest pressed key ends the wait. -/
theorem step_keyWait_of_key {k : Fin 16} (hin : s.inputs = []) (hf : s.fetch = .ok (wordXNN 0xF#4 x 0x0A#8))
    (hk : s.key k = true) (hlow : ∀ j, j < k → s.key j = false) : step s =
      .next { s with rand8 := none, result := .ok, pc := s.pc + 2, v := s.v.set x (BitVec.ofNat 8 k.val) } := by
  obtain ⟨-, hload, -⟩ := keyWaitTakesTheLowestKey x { s with rand8 := none, pc := s.pc + 2, result := .ok }
  exact (step_keyWait hin hf).trans (hload k hk hlow)

end

/-- Settles O50: one `Cycle` of the wait reaches a state that waits in the same way and is kept by every later `Cycle`; the
key set is the only one pressed, so the `Cycle` after it takes that key. -/
theorem keyWaitRepeatsUntilAKeyIsPressed : Obligations.KeyWaitRepeatsUntilAKeyIsPressed := by
  intro x s hin hf hnone
  refine ⟨run_of_step_fixed (step_keyWait_of_noKey hin hf hnone) (step_keyWait_of_noKey hin hf hnone), fun k => ?_⟩
  have hkey (j : Fin 16) := s.key_withKeys_set k j true
  have hk : (s.withKeys (s.keys.set k true)).key k = true := (hkey k).trans (if_pos rfl)
  have hlow (j : Fin 16) (hj : j < k) : (s.withKeys (s.keys.set k true)).key j = false :=
    (hkey j).trans ((if_neg hj.ne).trans (hnone j))
  have hload := step_keyWait_of_key (s := { s with inputs := [], keys := s.keys.set k true, result := .noResult })
    rfl hf hk hlow
  rw [run_succ_of_step (step_setKey rfl), run_succ_of_step hload, hin]
  rfl

/-! ### The sound timer (60_exceptions.md R259) -/

/-- Settles O54: FX18 writes `ST` without reading it, CXNN leaves it alone, and any other instruction carries it through and
leaves the random byte and its counter as they are. -/
theorem noInstructionReadsTheSoundTimer : Obligations.NoInstructionReadsTheSoundTimer := by
  intro i s t b h
  by_cases hst : ∃ x, i = .ldStVx x
  · obtain ⟨x, rfl⟩ := hst
    cases h
    exact ⟨_, rfl, fun hne => absurd rfl (hne x), fun _ => rfl⟩
  · refine ⟨b, ?_, fun _ => rfl, fun hx => absurd hx hst⟩
    by_cases hrnd : ∃ x nn, i = .rndVxNn x nn
    · obtain ⟨x, nn, rfl⟩ := hrnd
      cases h
      rfl
    · obtain ⟨-, -, -, -, -, -, -, hdraw, -, -, -, hrand⟩ := onlyTheNamedInstructionsWriteEachPiece i s t h
      have hdraws : t.draws = s.draws := not_imp_comm.1 hdraw hrnd
      have hexec := exec_withUnread s b s.rand8 s.draws (fun x nn e => hrnd ⟨x, nn, e⟩) (not_exists.1 hst)
      have hkeep : t.withUnread b s.rand8 s.draws = { t with st := b } := by rw [← hrand, ← hdraws]; rfl
      rw [h] at hexec
      exact hexec.trans (congrArg Host.Outcome.next hkeep)

end Machine

end Sys2Proof
end

section
/-! PROOFS. Reset and hazards (70_reset_and_hazards.md): the state `Construct` builds, the ROM `LoadROM` stores, the first
fetch after the two, and the self-jump. -/

namespace Sys2Proof

namespace Machine

/-! ### `Construct` (70_reset_and_hazards.md R280) -/

section

variable {f : FontConfig} (hf : f.wellFormed = true)

include hf

theorem step_construct {s : State} {rest : List HostOp} (hin : s.inputs = .construct f :: rest) :
    step s = .next (State.constructed { s with inputs := rest } f) :=
  (step_of_inputs_cons hin).trans (if_pos hf)

theorem wf_mem_constructed (s : State) : (s.constructed f).mem.wf :=
  (State.Inv.of_runConstruct (s := s) (if_pos hf)).mem

theorem readByte_constructed_font (s : State) (j : Fin 80) :
    readByte (s.constructed f).mem (f.base.toNat + j.val) = f.data.getD j.val 0 := by
  obtain ⟨hbase, hlen⟩ := fontConfig_wellFormed_iff.1 hf
  have hj : j.val < f.data.length := hlen ▸ j.isLt
  have hrange : f.base.toNat + f.data.length ≤ Config.memBytes := hlen ▸ hbase.trans (by decide)
  exact (readByte_writeBytes_inside wf_zeroMemory hrange hj).trans (List.getElem_eq_getD 0)

theorem readByte_constructed_outside (s : State) {a : Nat} (ha : a < f.base.toNat ∨ f.base.toNat + 80 ≤ a) :
    readByte (s.constructed f).mem a = 0 := by
  obtain ⟨-, hlen⟩ := fontConfig_wellFormed_iff.1 hf
  exact (readByte_writeBytes_outside zeroMemory (hlen ▸ ha)).trans (readByte_zeroMemory a)

/-- The font ends below the program (00_scope.md R8). -/
theorem readByte_constructed_of_romBase_le (s : State) {a : Nat} (ha : 0x200 ≤ a) :
    readByte (s.constructed f).mem a = 0 := by
  obtain ⟨hbase, -⟩ := fontConfig_wellFormed_iff.1 hf
  exact readByte_constructed_outside hf s (.inr (hbase.trans ha))

end

/-- Settles O2: memory is the font over zeros, and every other piece is a constant of `State.constructed`. -/
theorem constructBuildsTheResetState : Obligations.ConstructBuildsTheResetState := by
  intro s f rest hin hf
  have hstack (k : Fin 16) : (Vector.replicate 16 (0 : Word))[k] = 0 := Vector.getElem_replicate k.isLt
  have hreg (x : Reg) : (Vector.replicate 16 (0 : Byte))[x] = 0 := Vector.getElem_replicate x.isLt
  have hkey (k : Fin 16) : (Vector.replicate 16 false)[k] = false := Vector.getElem_replicate k.isLt
  exact ⟨_, step_construct hf hin, readByte_constructed_font hf _, fun _ _ => readByte_constructed_outside hf _,
    pixel_clearDisplay, rfl, rfl, hstack, rfl, rfl, rfl, hreg, hkey, rfl, rfl⟩

/-! ### `LoadROM` (70_reset_and_hazards.md R282) -/

section

variable {s : State} {bytes : List Byte} {rest : List HostOp} (hin : s.inputs = .loadROM bytes :: rest)

include hin

theorem step_loadROM (hlen : bytes.length ≤ 4096 - 0x200) :
    step s = .next { s with inputs := rest, mem := writeBytes s.mem 0x200 bytes, result := .ok } :=
  (step_of_inputs_cons hin).trans (if_neg (Nat.not_lt.2 hlen))

theorem step_loadROM_tooLarge (hlen : 4096 - 0x200 < bytes.length) :
    step s = .next { s with inputs := rest, result := .error .romTooLarge } :=
  (step_of_inputs_cons hin).trans (if_pos hlen)

end

/-- A ROM that fits stands in memory byte by byte. -/
theorem readByte_writeBytes_rom {m : Memory} (hm : m.wf) {bytes : List Byte} (hlen : bytes.length ≤ 4096 - 0x200) {k : Nat}
    (hk : k < bytes.length) : readByte (writeBytes m 0x200 bytes) (0x200 + k) = bytes[k] :=
  readByte_writeBytes_inside hm (Nat.add_le_add_left hlen 0x200) hk

/-- Settles O3: the size decides between a store of all the bytes and none. -/
theorem loadRomStoresTheRomOrNothing : Obligations.LoadRomStoresTheRomOrNothing := by
  intro s bytes rest hin
  refine ⟨fun hlen hm => ?_, step_loadROM_tooLarge hin⟩
  exact ⟨_, step_loadROM hin hlen, rfl, fun k => readByte_writeBytes_rom hm hlen k.isLt,
    fun a => readByte_writeBytes_outside s.mem⟩

/-! ### The first fetch (70_reset_and_hazards.md R284, R285) -/

/-- Settles O4: the ROM is stored over the memory that `Construct` left, whose cells from 0x200 up are 0. -/
theorem bootFetchesTheRom : Obligations.BootFetchesTheRom := by
  intro s f bytes hin hf h2 hlen
  have hpc : (0x200 : Word).toNat + 1 ≤ 0xFFF := by decide
  have hm := wf_mem_constructed hf { s with inputs := [.loadROM bytes] }
  have hload := step_loadROM (s := State.constructed { s with inputs := [.loadROM bytes] } f) rfl hlen
  refine ⟨_, (run_succ_of_step (step_construct hf hin) 1).trans (run_succ_of_step hload 0), rfl, rfl, rfl, ?_, ?_⟩
  · exact State.fetch_of_bytes hpc (readByte_writeBytes_rom hm hlen (Nat.zero_lt_of_lt h2))
      (readByte_writeBytes_rom hm hlen h2)
  · intro a ha _
    rw [readByte_writeBytes_outside _ (.inr ha)]
    exact readByte_constructed_of_romBase_le hf _ (Nat.le_of_add_right_le ha)

/-! ### The self-jump (70_reset_and_hazards.md R292) -/

/-- The jump undoes the advance of its `Cycle`, so only the random byte and the result are the new `Cycle`'s. -/
theorem step_selfJump {s : State} (hin : s.inputs = []) (hjump : s.atSelfJump) :
    step s = .next { s with rand8 := none, result := .ok } := by
  obtain ⟨nnn, hpc, hf⟩ := hjump
  have hcycle : step s = execJp nnn { s with rand8 := none, pc := s.pc + 2, result := .ok } :=
    (step_of_inputs_nil hin).trans (runCycle_instr hf (decodeOfEncode (.jp nnn)))
  rw [hcycle, execJp, hpc]
  rfl

/-- Settles O29: one `Cycle` reaches a state at the same self-jump, which every later `Cycle` keeps. -/
theorem selfJumpIsAFixedPoint : Obligations.SelfJumpIsAFixedPoint := fun _ hin hjump =>
  run_of_step_fixed (step_selfJump hin hjump) (step_selfJump hin hjump)

end Machine

end Sys2Proof
end

section
/-! PROOFS. The opcode table (30_encoding.md R80): the fields of a word that a row's mask keeps, and the row of the
instruction the word decodes to. -/

namespace Sys2Proof

open Laws

/-! ### The fields a mask keeps (30_encoding.md R72) -/

section

variable {w m p : Word}

/-- Bits that a mask keeps are those of the masked word. -/
theorem extractLsb'_eq_of_and {start len : Nat} (h : w &&& m = p)
    (hm : m.extractLsb' start len = BitVec.allOnes len) : w.extractLsb' start len = p.extractLsb' start len := by
  rw [← h, BitVec.extractLsb'_and, hm, BitVec.and_allOnes]

theorem fieldOp_eq_of_and (h : w &&& m = p) (hm : fieldOp m = 0xF#4) : fieldOp w = fieldOp p :=
  extractLsb'_eq_of_and h hm

theorem fieldSub_eq_of_and (h : w &&& m = p) (hm : fieldSub m = 0xF#4) : fieldSub w = fieldSub p :=
  extractLsb'_eq_of_and h hm

theorem fieldNN_eq_of_and (h : w &&& m = p) (hm : fieldNN m = 0xFF#8) : fieldNN w = fieldNN p :=
  extractLsb'_eq_of_and h hm

end

/-! ### Words and rows -/

/-- Every instruction's word matches its row. -/
theorem rowMatch (i : Instr) : RowMatch.Statement i := by
  cases i with
  | cls => exact RowMatch.cls
  | ret => exact RowMatch.ret
  | jp nnn => exact RowMatch.jp nnn
  | call nnn => exact RowMatch.call nnn
  | seVxNn x nn => exact RowMatch.seVxNn x nn
  | sneVxNn x nn => exact RowMatch.sneVxNn x nn
  | seVxVy x y => exact RowMatch.seVxVy x y
  | ldVxNn x nn => exact RowMatch.ldVxNn x nn
  | addVxNn x nn => exact RowMatch.addVxNn x nn
  | ldVxVy x y => exact RowMatch.ldVxVy x y
  | orVxVy x y => exact RowMatch.orVxVy x y
  | andVxVy x y => exact RowMatch.andVxVy x y
  | xorVxVy x y => exact RowMatch.xorVxVy x y
  | addVxVy x y => exact RowMatch.addVxVy x y
  | subVxVy x y => exact RowMatch.subVxVy x y
  | shrVx x y => exact RowMatch.shrVx x y
  | subnVxVy x y => exact RowMatch.subnVxVy x y
  | shlVx x y => exact RowMatch.shlVx x y
  | sneVxVy x y => exact RowMatch.sneVxVy x y
  | ldINnn nnn => exact RowMatch.ldINnn nnn
  | jpV0Nnn nnn => exact RowMatch.jpV0Nnn nnn
  | rndVxNn x nn => exact RowMatch.rndVxNn x nn
  | drw x y n => exact RowMatch.drw x y n
  | skp x => exact RowMatch.skp x
  | sknp x => exact RowMatch.sknp x
  | ldVxDt x => exact RowMatch.ldVxDt x
  | ldVxK x => exact RowMatch.ldVxK x
  | ldDtVx x => exact RowMatch.ldDtVx x
  | ldStVx x => exact RowMatch.ldStVx x
  | addIVx x => exact RowMatch.addIVx x
  | ldFVx x => exact RowMatch.ldFVx x
  | ldBVx x => exact RowMatch.ldBVx x
  | ldMemVx x => exact RowMatch.ldMemVx x
  | ldVxMem x => exact RowMatch.ldVxMem x

/-- A word that matches a row decodes to an instruction of it: the mask keeps the fields by which the decoder chooses. -/
theorem row_decode_of_and_mask {w : Word} (j : Instr) (h : w &&& j.row.mask = j.row.pattern) :
    (decode w).map Instr.row = some j.row := by
  cases j with dsimp only [Instr.row] at h ⊢
  | cls | ret =>
    obtain rfl := BitVec.and_allOnes.symm.trans h
    rfl
  | jp | call | seVxNn | sneVxNn | ldVxNn | addVxNn | ldINnn | jpV0Nnn | rndVxNn | drw =>
    rw [decode, fieldOp_eq_of_and h rfl]
    rfl
  | seVxVy | sneVxVy =>
    rw [decode, fieldOp_eq_of_and h rfl, fieldSub_eq_of_and h rfl]
    rfl
  | ldVxVy | orVxVy | andVxVy | xorVxVy | addVxVy | subVxVy | shrVx | subnVxVy | shlVx =>
    rw [decode, decodeAlu, fieldOp_eq_of_and h rfl, fieldSub_eq_of_and h rfl]
    rfl
  | skp | sknp =>
    rw [decode, decodeKey, fieldOp_eq_of_and h rfl, fieldNN_eq_of_and h rfl]
    rfl
  | ldVxDt | ldVxK | ldDtVx | ldStVx | addIVx | ldFVx | ldBVx | ldMemVx | ldVxMem =>
    rw [decode, decodeMisc, fieldOp_eq_of_and h rfl, fieldNN_eq_of_and h rfl]
    rfl

/-- Settles O17: the table lists the rows of instructions, and a word that decodes is the word of its instruction. -/
theorem decodeFollowsTheOpcodeTable : Obligations.DecodeFollowsTheOpcodeTable := by
  intro w r hr
  obtain ⟨j, -, rfl⟩ := List.mem_map.1 hr
  refine ⟨fun h => Option.map_eq_some_iff.1 (row_decode_of_and_mask j h), ?_⟩
  rintro ⟨i, hd, hrow⟩
  rw [← hrow, ← encodeOfDecode w i hd]
  exact rowMatch i

end Sys2Proof
end

section
/-! PROOFS. Steps that answer (60_exceptions.md R266), memories that read alike (20_memory.md), and the state after reset
(10_state.md R40). -/

namespace Sys2Proof

namespace Machine

/-! ### Every step answers -/

/-- Every `Cycle` answers a next state: the instruction's, or the one with the error of the fetch or of the decoder. -/
theorem runCycle_answers (r : Option Byte) (s : State) : ∃ t, runCycle r s = .next t := by
  cases hf : s.fetch with
  | error e => exact ⟨_, runCycle_fetchError hf⟩
  | ok w =>
    cases hd : decode w with
    | none => exact ⟨_, runCycle_unknown hf hd⟩
    | some i =>
      rw [runCycle_instr hf hd]
      exact everyInstructionAnswers i _

/-- Every call of the host answers a next state, but a `Construct` outside 00_scope.md R8 (log 8). -/
theorem runHostOp_answers (op : HostOp) (s : State) : (∃ t, runHostOp op s = .next t) ∨
    ∃ f, op = .construct f ∧ f.wellFormed = false ∧ runHostOp op s = .refused .fontOutsideParameterRange := by
  cases op with
  | construct f =>
    cases hf : f.wellFormed with
    | true => exact .inl ⟨s.constructed f, if_pos hf⟩
    | false => exact .inr ⟨f, rfl, hf, if_neg (Bool.eq_false_iff.1 hf)⟩
  | loadROM bytes =>
    by_cases hlen : Config.maxRomBytes < bytes.length
    · exact .inl ⟨_, if_pos hlen⟩
    · exact .inl ⟨_, if_neg hlen⟩
  | cycle r => exact .inl (runCycle_answers r s)
  | timerTick | setKey | observe => exact .inl ⟨_, rfl⟩

/-- Settles O14: the step is a `Cycle` or the oldest pending call. -/
theorem everyStepAnswers : Obligations.EveryStepAnswers := by
  intro s
  cases hin : s.inputs with
  | nil =>
    rw [step_of_inputs_nil hin]
    exact .inl (runCycle_answers none s)
  | cons op rest =>
    rw [step_of_inputs_cons hin]
    rcases runHostOp_answers op { s with inputs := rest } with h | ⟨f, rfl, hf, h⟩
    · exact .inl h
    · exact .inr ⟨f, rest, rfl, hf, h⟩

/-! ### Memories that read alike (log 5) -/

/-- A canonical memory lists a cell exactly when the cell's address reads as its byte and would not do so unlisted. -/
theorem mem_iff_readByte {m : Memory} (hm : m.wf) (c : Host.Cell) :
    c ∈ m ↔ c.1 ≤ Config.maxAddr ∧ readByte m c.1 = c.2 ∧ c.2 ≠ unlistedByte c.1 := by
  induction m with
  | nil => exact ⟨fun hc => absurd hc List.not_mem_nil, fun ⟨_, hb, hne⟩ => absurd hb.symm hne⟩
  | cons d m ih =>
    obtain ⟨hd, -⟩ := List.pairwise_cons.1 hm.1
    obtain ⟨hmax, hne⟩ := hm.2 d List.mem_cons_self
    rw [List.mem_cons, readByte]
    split
    · next hk =>
      refine ⟨?_, fun ⟨_, hb, _⟩ => .inl (Prod.ext hk.symm hb.symm)⟩
      rintro (rfl | hc)
      · exact ⟨hmax, rfl, hne⟩
      · exact absurd hk (hd c hc).ne
    · next hk =>
      rw [or_iff_right fun e => hk (congrArg Prod.fst e.symm)]
      exact ih (wf_tail hm)

/-- A canonical memory lists no cell twice. -/
theorem nodup_of_wf {m : Memory} (hm : m.wf) : m.Nodup :=
  hm.1.imp fun hlt e => absurd (congrArg Prod.fst e) hlt.ne

/-- Settles O46: the two lists have the same cells, and the order of the addresses leaves one list of them. -/
theorem memoriesThatReadAlikeAreEqual : Obligations.MemoriesThatReadAlikeAreEqual := by
  intro m m' hm hm' hread
  have hmem (c : Host.Cell) : c ∈ m ↔ c ∈ m' := by
    rw [mem_iff_readByte hm, mem_iff_readByte hm']
    exact and_congr_right fun hc => by rw [hread c.1 hc]
  have hperm : m.Perm m' := (List.perm_ext_iff_of_nodup (nodup_of_wf hm) (nodup_of_wf hm')).2 hmem
  exact hperm.eq_of_pairwise (fun _ _ _ _ hlt hgt => absurd hgt hlt.asymm) hm.1 hm'.1

/-! ### The state after reset -/

theorem unlistedByte_font (j : Fin 80) : unlistedByte (Config.fontBase.toNat + j.val) = defaultFontData.getD j.val 0 := by
  rw [unlistedByte, if_pos ⟨Nat.le_add_right .., Nat.add_lt_add_left j.isLt _⟩, Nat.add_sub_cancel_left]

theorem unlistedByte_outside {a : Nat} (h : a < Config.fontBase.toNat ∨ Config.fontBase.toNat + 80 ≤ a) :
    unlistedByte a = 0 :=
  if_neg fun ⟨hlo, hhi⟩ => h.elim (Nat.not_lt.2 hlo) (Nat.not_le.2 hhi)

/-- Settles O1: memory at reset lists no cell, and every other piece is a constant of `State.reset`. -/
theorem resetLeavesTheSpecsValues : Obligations.ResetLeavesTheSpecsValues := by
  have hstack (k : Fin 16) : State.reset.stack[k] = 0 := Vector.getElem_replicate k.isLt
  have hreg (x : Reg) : State.reset.reg x = 0 := Vector.getElem_replicate x.isLt
  have hkey (k : Fin 16) : State.reset.key k = false := Vector.getElem_replicate k.isLt
  exact ⟨unlistedByte_font, fun _ _ => unlistedByte_outside, pixel_clearDisplay, rfl, rfl, hstack, rfl, rfl, rfl, hreg,
    hkey⟩

end Machine

end Sys2Proof
end

section
/-! PROOFS. Register results: copies, logic, differences and shifts (42_arithmetic_logic.md R154 to R162), the free random
byte (log 2), and the timer transfers (45_timer_keypad.md R233 to R235). -/

namespace Sys2Proof

namespace Machine

/-! ### Copy and logic -/

theorem byte_or_eq_ofNat (a b : Byte) : a ||| b = BitVec.ofNat 8 (a.toNat ||| b.toNat) := by
  rw [BitVec.ofNat_or, BitVec.ofNat_toNat, BitVec.ofNat_toNat, BitVec.setWidth_eq, BitVec.setWidth_eq]

theorem byte_xor_eq_ofNat (a b : Byte) : a ^^^ b = BitVec.ofNat 8 (a.toNat ^^^ b.toNat) := by
  rw [BitVec.ofNat_xor, BitVec.ofNat_toNat, BitVec.ofNat_toNat, BitVec.setWidth_eq, BitVec.setWidth_eq]

/-- Settles O31: one register is written, with the copy or with the operation on the two numbers. -/
theorem copyAndLogicWriteNoFlag : Obligations.CopyAndLogicWriteNoFlag := by
  intro x y s
  have hor : exec (.orVxVy x y) s = .next (s.setReg x (s.reg x ||| s.reg y)) := rfl
  have hand : exec (.andVxVy x y) s = .next (s.setReg x (s.reg x &&& s.reg y)) := rfl
  have hxor : exec (.xorVxVy x y) s = .next (s.setReg x (s.reg x ^^^ s.reg y)) := rfl
  rw [byte_or_eq_ofNat] at hor
  rw [byte_and_eq_ofNat] at hand
  rw [byte_xor_eq_ofNat] at hxor
  exact ⟨decodeOfEncode (.ldVxVy x y), decodeOfEncode (.orVxVy x y), decodeOfEncode (.andVxVy x y),
    decodeOfEncode (.xorVxVy x y), rfl, hor, hand, hxor⟩

/-! ### Differences -/

theorem byte_sub_eq_ofInt (a b : Byte) : a - b = BitVec.ofInt 8 ((a.toNat : Int) - b.toNat) := by
  apply BitVec.eq_of_toNat_eq
  rw [BitVec.toNat_sub, BitVec.toNat_ofInt]
  omega

/-- Settles O33: the flag is computed from the operands on entry and is written after the difference, so `X = F` is no case
apart. -/
theorem subtractionsSetNotBorrow : Obligations.SubtractionsSetNotBorrow := by
  intro x y s
  have hsub : exec (.subVxVy x y) s =
      .next (s.setRegAndFlag x (s.reg x - s.reg y) (noBorrowFlag (s.reg x) (s.reg y))) := rfl
  have hsubn : exec (.subnVxVy x y) s =
      .next (s.setRegAndFlag x (s.reg y - s.reg x) (noBorrowFlag (s.reg y) (s.reg x))) := rfl
  rw [byte_sub_eq_ofInt, noBorrowFlag, flagByte_decide] at hsub hsubn
  exact ⟨decodeOfEncode (.subVxVy x y), decodeOfEncode (.subnVxVy x y), hsub, hsubn⟩

/-! ### Shifts -/

theorem byte_shiftRight_one_eq_ofNat (a : Byte) : a >>> 1 = BitVec.ofNat 8 (a.toNat / 2) := by
  apply BitVec.eq_of_toNat_eq
  rw [BitVec.toNat_ushiftRight, Nat.shiftRight_eq_div_pow, BitVec.toNat_ofNat]
  omega

theorem byte_shiftLeft_one_eq_ofNat (a : Byte) : a <<< 1 = BitVec.ofNat 8 (2 * a.toNat % 256) := by
  apply BitVec.eq_of_toNat_eq
  rw [BitVec.toNat_shiftLeft, Nat.shiftLeft_eq, BitVec.toNat_ofNat]
  omega

theorem lowBitFlag_eq_ofNat (a : Byte) : lowBitFlag a = BitVec.ofNat 8 (a.toNat % 2) := by
  have hone : (1 : Byte).toNat = 1 := rfl
  rw [lowBitFlag, byte_and_eq_ofNat, hone, Nat.and_one_is_mod]

theorem highBitFlag_eq_ofNat (a : Byte) : highBitFlag a = BitVec.ofNat 8 (a.toNat / 128) := by
  have hbit : (a >>> 7).toNat % 2 = a.toNat / 128 := by
    rw [BitVec.toNat_ushiftRight, Nat.shiftRight_eq_div_pow]
    omega
  exact (lowBitFlag_eq_ofNat (a >>> 7)).trans (congrArg (BitVec.ofNat 8) hbit)

/-- Settles O34: both rules read Vx alone, and the flag is written after the shifted byte. -/
theorem shiftsKeepTheBitShiftedOut : Obligations.ShiftsKeepTheBitShiftedOut := by
  intro x y s
  have hshr : exec (.shrVx x y) s = .next (s.setRegAndFlag x (s.reg x >>> 1) (lowBitFlag (s.reg x))) := rfl
  have hshl : exec (.shlVx x y) s = .next (s.setRegAndFlag x (s.reg x <<< 1) (highBitFlag (s.reg x))) := rfl
  rw [byte_shiftRight_one_eq_ofNat, lowBitFlag_eq_ofNat] at hshr
  rw [byte_shiftLeft_one_eq_ofNat, highBitFlag_eq_ofNat] at hshl
  exact ⟨decodeOfEncode (.shrVx x y), decodeOfEncode (.shlVx x y), hshr, hshl⟩

/-! ### The free random byte (log 2) -/

section

variable {s : State} (h : s.rand8 = none)

include h

theorem State.randomByte_of_rand8_none : s.randomByte = Config.freeRand8 s.draws := by
  rw [State.randomByte, h, Option.getD_none]

theorem State.drawn_of_rand8_none : s.drawn = { s with draws := s.draws + 1 } := by
  rw [State.drawn, h]
  rfl

end

/-- Settles O36: the write of Vx leaves no random byte at hand, so the draw counts the free value it used. -/
theorem randomByteIsFreeOtherwise : Obligations.RandomByteIsFreeOtherwise := by
  intro x nn s h
  have hrnd : exec (.rndVxNn x nn) s = .next (s.setReg x (s.randomByte &&& nn)).drawn := rfl
  rw [State.drawn_of_rand8_none ((s.setReg_rand8 x _).trans h), State.randomByte_of_rand8_none h] at hrnd
  exact hrnd

/-! ### The timer transfers -/

/-- Settles O47: each rule is one update. -/
theorem timerTransfers : Obligations.TimerTransfers := fun x _ =>
  ⟨decodeOfEncode (.ldVxDt x), decodeOfEncode (.ldDtVx x), decodeOfEncode (.ldStVx x), rfl, rfl, rfl⟩

end Machine

end Sys2Proof
end

section
/-! PROOFS. The sprite that DXYN draws (43_display.md R192, R193). -/

namespace Sys2Proof

namespace Machine

section

variable (s : State) (x y : Reg) (n : Fin 16)

/-- The sprite in memory is the rows that DXYN reads, from the origin its coordinates give. -/
theorem spriteOn_iff (col : Fin 64) (row : Fin 32) : spriteOn s x y n col row = true ↔
    spriteCovers (originColumn (s.reg x)) (originRow (s.reg y)) (readBytes s.mem s.i.toNat n.val) col row := by
  rw [spriteOn, Bool.and_eq_true, decide_eq_true_iff, spriteCovers, length_readBytes, getD_readBytes]
  constructor
  · rintro ⟨⟨hleft, hright, htop, hbottom⟩, hbit⟩
    have hrow : row.val - originRow (s.reg y) < n.val := Nat.sub_lt_left_of_lt_add htop hbottom
    rw [if_pos hrow]
    exact ⟨htop, hbottom, hleft, hright, hbit⟩
  · rintro ⟨htop, hbottom, hleft, hright, hbit⟩
    rw [if_pos (Nat.sub_lt_left_of_lt_add htop hbottom)] at hbit
    exact ⟨⟨hleft, hright, htop, hbottom⟩, hbit⟩

theorem pixel_drawing (col : Fin 64) (row : Fin 32) :
    pixel (s.drawing x y n).display col row = (pixel s.display col row ^^ spriteOn s x y n col row) := by
  rw [Bool.eq_iff_iff.2 ((spriteOn_iff s x y n col row).trans decide_eq_true_iff.symm)]
  exact pixel_drawSprite ..

theorem collision_drawing : (s.drawing x y n).collision = true ↔
    ∃ col row, spriteOn s x y n col row = true ∧ pixel s.display col row = true := by
  simp only [spriteOn_iff]
  exact (collision_drawSprite ..).trans (or_iff_right Bool.false_ne_true)

end

/-- Settles O38: the drawing flips the cells its sprite covers, and VF holds its collision. -/
theorem drawXorsTheSprite : Obligations.DrawXorsTheSprite := by
  intro x y n s
  have hn : BitVec.ofNat 4 n.val = BitVec.ofFin n := BitVec.ofFin_eq_ofNat.symm
  refine ⟨hn ▸ decodeOfEncode (.drw x y n), fun hin => ?_, fun ⟨h0, hout⟩ => ?_⟩
  · exact ⟨_, (s.drawing x y n).collision, exec_drw_of_inRange hin, pixel_drawing s x y n, collision_drawing s x y n, rfl⟩
  · rw [exec, execDrw, checkedRead_of_outOfRange h0 hout]
    rfl

end Machine

end Sys2Proof
end
